-- ==== Sys2Proof/Word.lean ====
section
/-!
DEFINITION. The words on the block's two encoded ports and the response statuses (30_encoding.md R70, R73, R75).
-/

namespace Sys2Proof

/-- A request address or a 16-bit payload (30_encoding.md R70). -/
abbrev Word16 := BitVec 16

/-- A voltage word: 12 bits (00_scope.md R9). -/
abbrev Volt12 := BitVec 12

/-- A request word `REQ[34:0]` (30_encoding.md R70). -/
abbrev ReqWord := BitVec 35

/-- A response word `RSP[17:0]` (30_encoding.md R73). -/
abbrev RspWord := BitVec 18

/-- The response statuses of 30_encoding.md R73. Code 3 is never produced, so it has no constructor. -/
inductive Status where
  /-- status 0 -/
  | ok
  /-- status 1, 60_exceptions.md R301 -/
  | illegalFunction
  /-- status 2, 60_exceptions.md R302 -/
  | illegalDataAddress
  deriving DecidableEq, Repr, Inhabited

/-- One response (30_encoding.md R73): a status and a 16-bit read result. -/
structure Response where
  status : Status
  rdata : Word16
  deriving DecidableEq, Repr

/-- An encoded instruction of the opcode table: a 35-bit request word or a 16-bit SPI command word. No word has any
other width (30_encoding.md R84). -/
inductive Code where
  | req (w : ReqWord)
  | spi (w : Word16)
  deriving DecidableEq, Repr

end Sys2Proof
end

