-- ==== Sys2Proof/Config.lean ====
section
/-!
DEFINITION. The parameters of 00_scope.md R8, which are fixed before reset (10_state.md R35), and the free values: what
the environment answers, under no law.
-/

namespace Sys2Proof

/-- `TOPOLOGY` (00_scope.md R3, R8), with `BOARDS_PER_SIPM` where it exists. -/
inductive Topology where
  | board
  | sipm (boardsPerSipm : Nat)
  deriving DecidableEq, Repr

/-- `CS_VARIANT` (00_scope.md R3, R8), with the parameters that exist only in that variant: `NUM_CS_LINES` and the table
`CS_MAP` (entry `j` is chip `j`'s line), or `DEC_LINES`. -/
inductive CsVariant where
  | direct (numCsLines : Nat) (csMap : List Nat)
  | decoded (decLines : Nat)
  deriving DecidableEq, Repr

/-- The named delays of 00_scope.md R8, the arguments of `Wait(T)` events. -/
inductive Delay where
  | tCsSetup
  | tCsHold
  | tDecSetup
  | tDecHold
  | tLdacLow
  | tStrobeGap
  deriving DecidableEq, Repr

/-- The configuration: every OPEN parameter of 00_scope.md R8. `tempSpan` is `some TEMP_SPAN` when
`TEMP_VARIANT = true` and `none` when it is false. The six durations are natural numbers of an unnamed unit; no rule
depends on them (70_reset_and_hazards.md R343). -/
structure Config where
  numChips : Nat
  topology : Topology
  ctrlInit : Word16
  cs : CsVariant
  nullWordAfterCtrl : Bool
  spiMode : Fin 4
  tempSpan : Option Nat
  tCsSetup : Nat
  tCsHold : Nat
  tDecSetup : Nat
  tDecHold : Nat
  tLdacLow : Nat
  tStrobeGap : Nat
  deriving DecidableEq, Repr

/-- `DAC_SPAN = 4 · NUM_CHIPS` (00_scope.md R8). -/
def Config.dacSpan (c : Config) : Nat := 4 * c.numChips

/-- `NUM_GROUPS = NUM_CHIPS / 2` (00_scope.md R8). -/
def Config.numGroups (c : Config) : Nat := c.numChips / 2

/-- The least time a `Wait` of the named delay stands for (41_chip_select.md R121). -/
def Config.duration (c : Config) : Delay → Nat
  | .tCsSetup => c.tCsSetup
  | .tCsHold => c.tCsHold
  | .tDecSetup => c.tDecSetup
  | .tDecHold => c.tDecHold
  | .tLdacLow => c.tLdacLow
  | .tStrobeGap => c.tStrobeGap

/-- DESIGN CHOICE (log 2): the configuration of `State.reset` is CFG-A, the example configuration of
95_test_vectors.md. Unsafe for a claim about `State.reset` alone. -/
def Config.cfgA : Config where
  numChips := 4
  topology := .board
  ctrlInit := 0x0000#16
  cs := .direct 4 [0, 1, 2, 3]
  nullWordAfterCtrl := false
  spiMode := 0
  tempSpan := none
  tCsSetup := 0
  tCsHold := 0
  tDecSetup := 0
  tDecHold := 0
  tLdacLow := 0
  tStrobeGap := 0

/-- Free value (43_control_engine.md R168, log 3): the word received by the transfer that takes draw `n`. -/
opaque Config.rxDraw : Nat → Word16

/-- Free value (44_request_ops.md R207, log 4): the status the temperature unit answers at draw `n`. -/
opaque Config.tempStatus : Nat → Status

/-- Free value (44_request_ops.md R207, log 4): the data the temperature unit answers at draw `n`. -/
opaque Config.tempData : Nat → Word16

/-- Free value (10_state.md R31, 93_implementation_defined.md I10, log 5): the level MOSI rests at once `n` draws are
taken. -/
opaque Config.mosiIdle : Nat → Bool

end Sys2Proof
end

