-- ==== Sys2Proof/Machine/Operands.lean ====
section
/-!
DEFINITION. Operand forms and word builders: what a request's payload means (30_encoding.md R80, R81), the SPI command
words (R76 to R79), the readback decode (R82), and the order of the bits on the SPI wires (20_memory.md R55).
-/

namespace Sys2Proof.Machine

/-- The cached voltage of a payload: it saturates at 4095 (30_encoding.md R80, 42_register_cache.md R140). -/
def clampVoltage (w : Word16) : Volt12 := BitVec.ofNat 12 (min w.toNat 4095)

/-- `VOLT(s, rawV) = (rawV mod 4096) | ((s + 1) << 12)` (30_encoding.md R76). -/
def voltWord (sub : Nat) (rawV : Word16) : Word16 :=
  BitVec.ofNat 16 ((rawV.toNat % 4096) ||| ((sub + 1) <<< 12))

/-- `RDREQ(s) = 0x8000 | ((s + 1) << 12)` (30_encoding.md R77). -/
def rdreqWord (sub : Nat) : Word16 := BitVec.ofNat 16 (0x8000 ||| ((sub + 1) <<< 12))

/-- The null word (30_encoding.md R79). -/
def nullWord : Word16 := 0x0000#16

/-- The power bit's mask, `1 << (s + 2)` (43_control_engine.md R165). -/
def powerMask (sub : Nat) : Word16 := 1#16 <<< (sub + 2)

/-- The control word with sub-channel `sub` set or cleared (43_control_engine.md R165). -/
def withPower (w : Word16) (sub : Nat) (on : Bool) : Word16 :=
  if on then w ||| powerMask sub else w &&& ~~~(powerMask sub)

/-- The control word whose power bits are `pwr` and whose other bits are those of `CTRL_INIT` (30_encoding.md R78). -/
def ctrlWord (ctrlInit : Word16) (pwr : BitVec 4) : Word16 :=
  (ctrlInit &&& 0xFFC3#16) ||| (pwr.zeroExtend 16 <<< 2)

/-- The coil-write operand `on = (wdata ≠ 0)` (30_encoding.md R81). -/
def coilOn (wdata : Word16) : Bool := wdata != 0#16

/-- `RB(rx) = (rx << 1) mod 4096` (30_encoding.md R82). -/
def readback (rx : Word16) : Volt12 := BitVec.ofNat 12 ((rx.toNat <<< 1) % 4096)

/-- A voltage as a read result, zero-extended (20_memory.md R57). -/
def voltResult (v : Volt12) : Word16 := v.zeroExtend 16

/-- A coil as a read result, zero-extended (20_memory.md R57). -/
def coilResult (b : Bool) : Word16 := (BitVec.ofBool b).zeroExtend 16

/-- The bits of a word in the order they pass on MOSI or MISO: bit 15 first (20_memory.md R55, 30_encoding.md R75). -/
def wireBits (w : Word16) : List Bool := (List.range 16).map fun k => w.getLsbD (15 - k)

/-- The word whose bits passed on the wire in this order, first bit most significant (20_memory.md R55). -/
def wordOfWire (bits : List Bool) : Word16 := bits.foldl (fun acc b => (acc <<< 1) ||| (BitVec.ofBool b).zeroExtend 16) 0#16

/-- PRESUMED (log 6): SCLK idles low in SPI modes 0 and 1 and high in modes 2 and 3. The spec says only that the mode
sets the level (10_state.md R31). -/
def sclkIdle (c : Config) : Bool := decide (2 ≤ c.spiMode.val)

end Sys2Proof.Machine
end

