-- ==== Sys2Proof/Machine/State.lean ====
section
/-!
DEFINITION. The state of the block (10_state.md R37), its bus events (41_chip_select.md R121, 43_control_engine.md R160),
the reasons a step can stop, and the reset state (70_reset_and_hazards.md R330 to R334).
-/

namespace Sys2Proof.Machine

/-- The levels of the output lines that select and strobe chips. `true` is level 1; every line but `DEC_A` is active
low (10_state.md R28 to R30). -/
structure Lines where
  /-- `CS_N[k]`, entry `k` -/
  csN : List Bool
  /-- `DEC_A` as a number; bit `k` of it is `DEC_A[k]` -/
  decA : Nat
  enN : Bool
  ldacN : Bool
  deriving DecidableEq, Repr

/-- Bus events (41_chip_select.md R121, 43_control_engine.md R160, 44_request_ops.md R207). -/
inductive Event where
  | csLow (k : Nat)
  | csHigh (k : Nat)
  | decAddr (p : Nat)
  | enLow
  | enHigh
  | wait (t : Delay)
  | xfer (tx rx : Word16)
  | ldacLow
  | ldacHigh
  | tempCall (op : BitVec 3) (off : Nat) (status : Status) (rdata : Word16)
  deriving DecidableEq, Repr

/-- `PHASE` (10_state.md R32). -/
inductive Phase where
  | idle
  | busy
  deriving DecidableEq, Repr

/-- One bus operation of a transaction after its select (43_control_engine.md R160): transfer a word, deselect, or
pulse the load strobe. -/
inductive SeqOp where
  | send (tx : Word16)
  | deselect
  | strobe
  deriving DecidableEq, Repr

/-- What reaches the block from outside: a request word on the request port (30_encoding.md R70), or an assertion of
`RST` between requests (70_reset_and_hazards.md R330). -/
inductive Input where
  | request (w : ReqWord)
  | rst
  deriving DecidableEq, Repr

/-- The block's state. The seven fields from `vcache` to `sel` are the spec's (10_state.md R37); `cfg`, `seq`, `inbox`,
`responses`, `trace` and `draws` are the model's own (INVENTORY.md, State). -/
structure State where
  /-- the configuration, which no step writes (10_state.md R35, log 1) -/
  cfg : Config
  /-- VCACHE (R21) -/
  vcache : List Volt12
  /-- CCACHE (R24) -/
  ccache : List Word16
  /-- CS_N, DEC_A, EN_N, LDAC_N (R28 to R30) -/
  lines : Lines
  /-- SCLK (R31) -/
  sclk : Bool
  /-- MOSI (R31), log 5 -/
  mosi : Bool
  /-- PHASE (R32) -/
  phase : Phase
  /-- SEL (R32) -/
  sel : Option Nat
  /-- what is left of the transaction in progress while BUSY (log 10) -/
  seq : List SeqOp
  /-- requests and resets to come, next one first (log 7) -/
  inbox : List Input
  /-- responses returned so far, oldest first (log 8) -/
  responses : List Response
  /-- bus events so far, oldest first (log 8) -/
  trace : List Event
  /-- draws taken so far (log 3) -/
  draws : Nat
  deriving DecidableEq, Repr

/-- Why the machine stops: model faults. None is a response (60_exceptions.md R304) and no request reaches one (R209). -/
inductive Fault where
  /-- Raised by `select` for a chip index that is not below `NUM_CHIPS` (41_chip_select.md R122). Safe: the source calls
  the case undefined. -/
  | selectOutOfRange
  /-- Raised by `select` of an existing chip while a chip is selected (41_chip_select.md R122, log 20). Safe: the spec gives no effect. -/
  | nestedSelect
  /-- Raised by `deselect` while no chip is selected (41_chip_select.md R123). Safe: the spec gives no effect. -/
  | deselectWithoutSelect
  /-- Raised by the cache operations for an index outside the array (42_register_cache.md R144). Safe: the spec gives no
  effect. -/
  | cacheIndexOutOfRange
  /-- Raised by a transfer while no chip is selected (43_control_engine.md R168, DEDUCED, log 12). Safe: the spec
  excludes the case. -/
  | xferWithoutSelect
  /-- Raised by the strobe while a chip is selected (43_control_engine.md R162, DEDUCED, log 12). Safe: the spec excludes
  the case. -/
  | strobeInWindow
  deriving DecidableEq, Repr

/-- Why the model has no meaning for a step. -/
inductive Refusal where
  /-- Raised by `exec` for an instruction that has no meaning yet; no arm raises it now. Safe. -/
  | notModelled (mnemonic : String)
  /-- Raised by a step whose configuration breaks a constraint of 00_scope.md R8 (70_reset_and_hazards.md R335). Safe:
  the spec refuses it. -/
  | badConfiguration
  /-- Raised by a step that would transfer a word of none of the four kinds (30_encoding.md R75, R83, log 13). Safe: the
  block never composes one. -/
  | unknownCommandWord
  deriving DecidableEq, Repr

/-- Every line at its idle level (70_reset_and_hazards.md R333); the direct lines exist in the DIRECT variant (log 16). -/
def Lines.idle (c : Config) : Lines where
  csN := match c.cs with
    | .direct n _ => List.replicate n true
    | .decoded _ => []
  decA := 0
  enN := true
  ldacN := true

/-- The reset state of a configuration (10_state.md R37, 70_reset_and_hazards.md R331 to R334). -/
def State.resetWith (c : Config) : State where
  cfg := c
  vcache := List.replicate c.dacSpan 0#12
  ccache := List.replicate c.numChips c.ctrlInit
  lines := Lines.idle c
  sclk := sclkIdle c
  mosi := Config.mosiIdle 0
  phase := .idle
  sel := none
  seq := []
  inbox := []
  responses := []
  trace := []
  draws := 0

/-- The machine right after reset, in the configuration CFG-A (log 2). -/
def State.reset : State := State.resetWith Config.cfgA

end Sys2Proof.Machine
end

