-- ==== Sys2Proof/Machine/Translator.lean ====
section
/-!
DEFINITION. The address translator (40_address_translator.md): a pure, total function of the address and the
configuration.
-/

namespace Sys2Proof.Machine

/-- The fields of a `Dac` result (40_address_translator.md R100). `sipm` is `none` in the BOARD topology. -/
structure DacTarget where
  chipSel : Nat
  sub : Nat
  bank : Nat
  chipInBoard : Nat
  group : Nat
  board : Nat
  sipm : Option Nat
  deriving DecidableEq, Repr

/-- The three forms of a result (40_address_translator.md R100). -/
inductive Target where
  | dac (t : DacTarget)
  | temp (off : Nat)
  | outOfRange
  deriving DecidableEq, Repr

/-- The chip-select index (40_address_translator.md R102). -/
def chipSelOf (a : Word16) : Nat := a.toNat / 4

/-- The chip-internal channel (40_address_translator.md R103). -/
def subOf (a : Word16) : Nat := a.toNat % 4

/-- The decomposition of a DAC-domain address (40_address_translator.md R102 to R106). -/
def decompose (c : Config) (a : Word16) : DacTarget :=
  let group := chipSelOf a / 2
  { chipSel := chipSelOf a
    sub := subOf a
    bank := chipSelOf a
    chipInBoard := chipSelOf a % 2
    group := group
    board := match c.topology with
      | .board => group
      | .sipm n => group % n
    sipm := match c.topology with
      | .board => none
      | .sipm n => some (group / n) }

/-- The address a target stands for, from its outermost fields (40_address_translator.md R108). -/
def recompose (c : Config) (t : DacTarget) : Nat :=
  let group := match c.topology, t.sipm with
    | .sipm n, some s => s * n + t.board
    | _, _ => t.board
  4 * (2 * group + t.chipInBoard) + t.sub

/-- `translate(a)` (40_address_translator.md R101, R109, R110). -/
def translateAddress (c : Config) (a : Word16) : Target :=
  if a.toNat < c.dacSpan then .dac (decompose c a)
  else match c.tempSpan with
    | some n => if a.toNat < c.dacSpan + n then .temp (a.toNat - c.dacSpan) else .outOfRange
    | none => .outOfRange

end Sys2Proof.Machine
end

