-- ==== Sys2Proof/Machine/Ops.lean ====
section
/-!
DEFINITION. The named operations every unit shares: emitting an event, one SPI transfer, answering a request, the two
error responses (which take the place of exceptions, 60_exceptions.md R300), and the reset input.
-/

namespace Sys2Proof.Machine

/-- What an event does to the lines (41_chip_select.md R121, 43_control_engine.md R160). Every line an event does not
drive keeps its level. -/
def drive (e : Event) (l : Lines) : Lines :=
  match e with
  | .csLow k => { l with csN := l.csN.set k false }
  | .csHigh k => { l with csN := l.csN.set k true }
  | .decAddr p => { l with decA := p }
  | .enLow => { l with enN := false }
  | .enHigh => { l with enN := true }
  | .wait _ => l
  | .xfer _ _ => l
  | .ldacLow => { l with ldacN := false }
  | .ldacHigh => { l with ldacN := true }
  | .tempCall _ _ _ _ => l

/-- The line levels after several events, first one first. -/
def driveAll (l : Lines) (es : List Event) : Lines := es.foldl (fun m e => drive e m) l

/-- `emit E` (00_scope.md R12): the event joins the trace and drives its line. -/
def emit (e : Event) (s : State) : State := { s with trace := s.trace ++ [e], lines := drive e s.lines }

/-- `emit` of several events, first one first. -/
def emitAll (es : List Event) (s : State) : State :=
  { s with trace := s.trace ++ es, lines := driveAll s.lines es }

/-- The state after a transfer that sent `tx` and received `rx` (43_control_engine.md R168). Between transfers SCLK is
at its idle level and MOSI at a free level (10_state.md R31, log 5). -/
def transferred (tx rx : Word16) (s : State) : State :=
  { emit (.xfer tx rx) s with
    draws := s.draws + 1, sclk := sclkIdle s.cfg, mosi := Config.mosiIdle (s.draws + 1) }

/-- `rx <- Xfer(tx)` with its precondition (43_control_engine.md R168): the received word is the next draw. -/
def xfer (tx : Word16) (s : State) : Except Fault (Word16 × State) :=
  match s.sel with
  | none => .error .xferWithoutSelect
  | some _ => .ok (Config.rxDraw s.draws, transferred tx (Config.rxDraw s.draws) s)

/-- A transfer whose received word is discarded (43_control_engine.md R170). -/
def xferOnly (tx : Word16) (s : State) : Except Fault State :=
  match xfer tx s with
  | .ok (_, t) => .ok t
  | .error f => .error f

/-- `respond(status, rdata)` (00_scope.md R12): the request ends with its one response, and PHASE is IDLE again
(30_encoding.md R74). -/
def respond (status : Status) (rdata : Word16) (s : State) : State :=
  { s with responses := s.responses ++ [{ status := status, rdata := rdata }], phase := .idle }

/-- `raise IllegalFunction` (00_scope.md R12, 60_exceptions.md R301, R306): a response that changes nothing else. -/
def raiseIllegalFunction (s : State) : State := respond .illegalFunction 0#16 s

/-- `raise IllegalDataAddress` (00_scope.md R12, 60_exceptions.md R302, R306): a response that changes nothing else. -/
def raiseIllegalDataAddress (s : State) : State := respond .illegalDataAddress 0#16 s

/-- A read in the temperature domain (44_request_ops.md R207): one `TempCall` event, and the unit's drawn answer is the
response. -/
def forwardTemp (op : BitVec 3) (off : Nat) (s : State) : State :=
  let status := Config.tempStatus s.draws
  let rdata := Config.tempData s.draws
  respond status rdata { emit (.tempCall op off status rdata) s with draws := s.draws + 1 }

/-- The reset input (70_reset_and_hazards.md R330): the reset state of the same configuration, with no event (R334).
What is outside the block stays: the requests to come, the responses and events so far, the draws (log 9). -/
def applyReset (s : State) : State :=
  { State.resetWith s.cfg with
    mosi := Config.mosiIdle s.draws
    inbox := s.inbox
    responses := s.responses
    trace := s.trace
    draws := s.draws }

/-- A model fault ends the run (00_scope.md R12). -/
def outcome : Except Fault State → Host.Outcome State Fault Refusal
  | .ok s => .next s
  | .error f => .fault f

end Sys2Proof.Machine
end

