-- ==== Sys2Proof/Machine/Cache.lean ====
section
/-!
DEFINITION. The shadow cache's four access operations (42_register_cache.md). An index outside the array is a model
fault (R144).
-/

namespace Sys2Proof.Machine

/-- `cacheVoltage(ch, w)` (42_register_cache.md R140). -/
def cacheVoltage (ch : Nat) (w : Word16) (s : State) : Except Fault State :=
  if ch < s.vcache.length then .ok { s with vcache := s.vcache.set ch (clampVoltage w) }
  else .error .cacheIndexOutOfRange

/-- `readVoltage(ch)` (42_register_cache.md R141). -/
def readVoltage (ch : Nat) (s : State) : Except Fault Volt12 :=
  match s.vcache[ch]? with
  | some v => .ok v
  | none => .error .cacheIndexOutOfRange

/-- `cacheControl(j, w)` (42_register_cache.md R142). -/
def cacheControl (j : Nat) (w : Word16) (s : State) : Except Fault State :=
  if j < s.ccache.length then .ok { s with ccache := s.ccache.set j w }
  else .error .cacheIndexOutOfRange

/-- The whole control word of chip `j`, which setPower reads (43_control_engine.md R165). -/
def readControl (j : Nat) (s : State) : Except Fault Word16 :=
  match s.ccache[j]? with
  | some w => .ok w
  | none => .error .cacheIndexOutOfRange

/-- `readControlBit(j, s)` (42_register_cache.md R143). -/
def readControlBit (j sub : Nat) (s : State) : Except Fault Bool :=
  if sub < 4 then
    match s.ccache[j]? with
    | some w => .ok (w.getLsbD (sub + 2))
    | none => .error .cacheIndexOutOfRange
  else .error .cacheIndexOutOfRange

end Sys2Proof.Machine
end

