-- ==== Sys2Proof/Machine/ChipSelect.lean ====
section
/-!
DEFINITION. The chip-select multiplexer (41_chip_select.md): one interface, two variants.
-/

namespace Sys2Proof.Machine

/-- The line of chip `j`, `CS_MAP(j)` (00_scope.md R8). -/
def csLine (csMap : List Nat) (j : Nat) : Nat := csMap.getD j 0

/-- The events of `select(j)` (41_chip_select.md R124, R127). -/
def selectEvents (c : Config) (j : Nat) : List Event :=
  match c.cs with
  | .direct _ m => [.csLow (csLine m j), .wait .tCsSetup]
  | .decoded n => [.decAddr (j % 2 ^ n), .wait .tDecSetup, .enLow]

/-- The events of `deselect()` when chip `j` is selected (41_chip_select.md R125, R128). -/
def deselectEvents (c : Config) (j : Nat) : List Event :=
  match c.cs with
  | .direct _ m => [.wait .tCsHold, .csHigh (csLine m j)]
  | .decoded _ => [.wait .tDecHold, .enHigh]

/-- `select(j)` once its preconditions hold. -/
def openWindow (j : Nat) (s : State) : State := { emitAll (selectEvents s.cfg j) s with sel := some j }

/-- `deselect()` once its precondition holds and chip `j` is the selected one. -/
def closeWindow (j : Nat) (s : State) : State := { emitAll (deselectEvents s.cfg j) s with sel := none }

/-- `select(j)` with its preconditions (41_chip_select.md R122). DESIGN CHOICE (log 20): the rule does not say which fault
answers when both fail; the range is checked first, so it is `selectOutOfRange`. -/
def select (j : Nat) (s : State) : Except Fault State :=
  if j < s.cfg.numChips then
    match s.sel with
    | none => .ok (openWindow j s)
    | some _ => .error .nestedSelect
  else .error .selectOutOfRange

/-- `deselect()` with its precondition (41_chip_select.md R123). -/
def deselect (s : State) : Except Fault State :=
  match s.sel with
  | none => .error .deselectWithoutSelect
  | some j => .ok (closeWindow j s)

/-- The logical chip enable `CE(j)` at given line levels (41_chip_select.md R131; DECODED under R130). -/
def chipEnabled (c : Config) (l : Lines) (j : Nat) : Bool :=
  match c.cs with
  | .direct _ m => !l.csN.getD (csLine m j) true
  | .decoded _ => !l.enN && l.decA == j

end Sys2Proof.Machine
end

