-- ==== Sys2Proof/Machine/Engine.lean ====
section
/-!
DEFINITION. The transfer sequencer's four operations and the load strobe (43_control_engine.md).
-/

namespace Sys2Proof.Machine

/-- The events of the load-strobe pulse (43_control_engine.md R162). -/
def strobeEvents : List Event := [.wait .tStrobeGap, .ldacLow, .wait .tLdacLow, .ldacHigh]

/-- `strobe()`, outside every CS window (43_control_engine.md R162). -/
def strobe (s : State) : Except Fault State :=
  match s.sel with
  | none => .ok (emitAll strobeEvents s)
  | some _ => .error .strobeInWindow

/-- `updateVoltage(a, rawV)` (43_control_engine.md R161). -/
def updateVoltage (a rawV : Word16) (s : State) : Except Fault State := do
  let s ← cacheVoltage a.toNat rawV s
  let s ← select (chipSelOf a) s
  let s ← xferOnly (voltWord (subOf a) rawV) s
  let s ← deselect s
  strobe s

/-- `readVoltageApprox(a)` (43_control_engine.md R163): the advisory readback and the state after it. -/
def readVoltageApprox (a : Word16) (s : State) : Except Fault (Volt12 × State) := do
  let s ← select (chipSelOf a) s
  let (rx, s) ← xfer (rdreqWord (subOf a)) s
  let s ← deselect s
  pure (readback rx, s)

/-- The null word after a control word, where the variant has one (43_control_engine.md R166). -/
def sendNullAfterCtrl (s : State) : Except Fault State :=
  if s.cfg.nullWordAfterCtrl then xferOnly nullWord s else .ok s

/-- `setPower(a, on)` (43_control_engine.md R165). -/
def setPower (a : Word16) (on : Bool) (s : State) : Except Fault State := do
  let w ← readControl (chipSelOf a) s
  let w := withPower w (subOf a) on
  let s ← cacheControl (chipSelOf a) w s
  let s ← select (chipSelOf a) s
  let s ← xferOnly w s
  let s ← sendNullAfterCtrl s
  deselect s

/-- `getPower(a)` (43_control_engine.md R167). -/
def getPower (a : Word16) (s : State) : Except Fault Bool := readControlBit (chipSelOf a) (subOf a) s

end Sys2Proof.Machine
end

