-- ==== Sys2Proof/Machine/Requests.lean ====
section
/-!
DEFINITION. The meanings of the request operations (44_request_ops.md). Each is the branch of R200's dispatch for its op:
the op is known, so the address is translated next (R303).
-/

namespace Sys2Proof.Machine

/-- HRR (44_request_ops.md R202, R207, R208). -/
def execHrr (addr _wdata : Word16) (s : State) : Host.Outcome State Fault Refusal :=
  match translateAddress s.cfg addr with
  | .outOfRange => .next (raiseIllegalDataAddress s)
  | .temp off => .next (forwardTemp 0#3 off s)
  | .dac _ => outcome do
      let v ← readVoltage addr.toNat s
      pure (respond .ok (voltResult v) s)

/-- HRW (44_request_ops.md R201, R207, R208). -/
def execHrw (addr wdata : Word16) (s : State) : Host.Outcome State Fault Refusal :=
  match translateAddress s.cfg addr with
  | .outOfRange => .next (raiseIllegalDataAddress s)
  | .temp _ => .next (raiseIllegalDataAddress s)
  | .dac _ => outcome do
      let s ← updateVoltage addr wdata s
      pure (respond .ok 0#16 s)

/-- IRR (44_request_ops.md R203, R207, R208). -/
def execIrr (addr _wdata : Word16) (s : State) : Host.Outcome State Fault Refusal :=
  match translateAddress s.cfg addr with
  | .outOfRange => .next (raiseIllegalDataAddress s)
  | .temp off => .next (forwardTemp 2#3 off s)
  | .dac _ => outcome do
      let (v, s) ← readVoltageApprox addr s
      pure (respond .ok (voltResult v) s)

/-- CR (44_request_ops.md R205, R207, R208). -/
def execCr (addr _wdata : Word16) (s : State) : Host.Outcome State Fault Refusal :=
  match translateAddress s.cfg addr with
  | .outOfRange => .next (raiseIllegalDataAddress s)
  | .temp off => .next (forwardTemp 3#3 off s)
  | .dac _ => outcome do
      let b ← getPower addr s
      pure (respond .ok (coilResult b) s)

/-- CW (44_request_ops.md R204, R207, R208). -/
def execCw (addr wdata : Word16) (s : State) : Host.Outcome State Fault Refusal :=
  match translateAddress s.cfg addr with
  | .outOfRange => .next (raiseIllegalDataAddress s)
  | .temp _ => .next (raiseIllegalDataAddress s)
  | .dac _ => outcome do
      let s ← setPower addr (coilOn wdata) s
      pure (respond .ok 0#16 s)

/-- ILL, op 5 (44_request_ops.md R206). -/
def execIll5 (_addr _wdata : Word16) (s : State) : Host.Outcome State Fault Refusal := .next (raiseIllegalFunction s)

/-- ILL, op 6 (44_request_ops.md R206). -/
def execIll6 (_addr _wdata : Word16) (s : State) : Host.Outcome State Fault Refusal := .next (raiseIllegalFunction s)

/-- ILL, op 7 (44_request_ops.md R206). -/
def execIll7 (_addr _wdata : Word16) (s : State) : Host.Outcome State Fault Refusal := .next (raiseIllegalFunction s)

end Sys2Proof.Machine
end

