-- ==== Sys2Proof/Machine/SpiWords.lean ====
section
/-!
DEFINITION. The meanings of the SPI command words (30_encoding.md R75 to R79). An SPI command word is run by transferring
it to the selected chip (43_control_engine.md R168); select, deselect and strobe are the sequencer's own operations
around it (log 10). The engine operations of Engine.lean transfer the same words.
-/

namespace Sys2Proof.Machine

/-- VOLT_CH0 (30_encoding.md R76; transferred in 43_control_engine.md R161). -/
def execVoltCh0 (data : Volt12) (s : State) : Host.Outcome State Fault Refusal :=
  outcome (xferOnly (voltWord 0 (data.zeroExtend 16)) s)

/-- VOLT_CH1 (30_encoding.md R76; transferred in 43_control_engine.md R161). -/
def execVoltCh1 (data : Volt12) (s : State) : Host.Outcome State Fault Refusal :=
  outcome (xferOnly (voltWord 1 (data.zeroExtend 16)) s)

/-- VOLT_CH2 (30_encoding.md R76; transferred in 43_control_engine.md R161). -/
def execVoltCh2 (data : Volt12) (s : State) : Host.Outcome State Fault Refusal :=
  outcome (xferOnly (voltWord 2 (data.zeroExtend 16)) s)

/-- VOLT_CH3 (30_encoding.md R76; transferred in 43_control_engine.md R161). -/
def execVoltCh3 (data : Volt12) (s : State) : Host.Outcome State Fault Refusal :=
  outcome (xferOnly (voltWord 3 (data.zeroExtend 16)) s)

/-- RDREQ_CH0 (30_encoding.md R77; transferred in 43_control_engine.md R163). The received word is in the `Xfer` event. -/
def execRdreqCh0 (s : State) : Host.Outcome State Fault Refusal := outcome (xferOnly (rdreqWord 0) s)

/-- RDREQ_CH1 (30_encoding.md R77; transferred in 43_control_engine.md R163). -/
def execRdreqCh1 (s : State) : Host.Outcome State Fault Refusal := outcome (xferOnly (rdreqWord 1) s)

/-- RDREQ_CH2 (30_encoding.md R77; transferred in 43_control_engine.md R163). -/
def execRdreqCh2 (s : State) : Host.Outcome State Fault Refusal := outcome (xferOnly (rdreqWord 2) s)

/-- RDREQ_CH3 (30_encoding.md R77; transferred in 43_control_engine.md R163). -/
def execRdreqCh3 (s : State) : Host.Outcome State Fault Refusal := outcome (xferOnly (rdreqWord 3) s)

/-- CTRL (30_encoding.md R78; transferred in 43_control_engine.md R165). -/
def execCtrl (pwr : BitVec 4) (s : State) : Host.Outcome State Fault Refusal :=
  outcome (xferOnly (ctrlWord s.cfg.ctrlInit pwr) s)

/-- NULL (30_encoding.md R79; transferred in 43_control_engine.md R166). -/
def execNull (s : State) : Host.Outcome State Fault Refusal := outcome (xferOnly nullWord s)

end Sys2Proof.Machine
end

