-- ==== Sys2Proof/Syntax.lean ====
section
/-!
DEFINITION. The instructions: one constructor per row of spec/opcode_table.json. The first eight are request words
(30_encoding.md R71), the other ten are the SPI command words the sequencer transfers (R75).
-/

namespace Sys2Proof

/-- One row of the opcode table each. A request keeps its whole `wdata`, also where the op ignores it (R70). -/
inductive Instr where
  /-- HRR, op 0 -/
  | hrr (addr wdata : Word16)
  /-- HRW, op 1 -/
  | hrw (addr wdata : Word16)
  /-- IRR, op 2 -/
  | irr (addr wdata : Word16)
  /-- CR, op 3 -/
  | cr (addr wdata : Word16)
  /-- CW, op 4 -/
  | cw (addr wdata : Word16)
  /-- ILL, op 5 -/
  | ill5 (addr wdata : Word16)
  /-- ILL, op 6 -/
  | ill6 (addr wdata : Word16)
  /-- ILL, op 7 -/
  | ill7 (addr wdata : Word16)
  /-- VOLT_CH0 with its data field `tx[11:0]` -/
  | voltCh0 (data : Volt12)
  /-- VOLT_CH1 -/
  | voltCh1 (data : Volt12)
  /-- VOLT_CH2 -/
  | voltCh2 (data : Volt12)
  /-- VOLT_CH3 -/
  | voltCh3 (data : Volt12)
  /-- RDREQ_CH0 -/
  | rdreqCh0
  /-- RDREQ_CH1 -/
  | rdreqCh1
  /-- RDREQ_CH2 -/
  | rdreqCh2
  /-- RDREQ_CH3 -/
  | rdreqCh3
  /-- CTRL with its power bits `tx[5:2] = {PWR3, PWR2, PWR1, PWR0}` -/
  | ctrl (pwr : BitVec 4)
  /-- NULL -/
  | null
  deriving DecidableEq, Repr

end Sys2Proof
end

