-- ==== Sys2Proof/Machine/Dispatch.lean ====
section
/-!
DEFINITION. One arm per instruction.
-/

namespace Sys2Proof.Machine

def exec (i : Instr) (s : State) : Host.Outcome State Fault Refusal :=
  match i with
  | .hrr addr wdata => Sys2Proof.Machine.execHrr addr wdata s
  | .hrw addr wdata => Sys2Proof.Machine.execHrw addr wdata s
  | .irr addr wdata => Sys2Proof.Machine.execIrr addr wdata s
  | .cr addr wdata => Sys2Proof.Machine.execCr addr wdata s
  | .cw addr wdata => Sys2Proof.Machine.execCw addr wdata s
  | .ill5 addr wdata => Sys2Proof.Machine.execIll5 addr wdata s
  | .ill6 addr wdata => Sys2Proof.Machine.execIll6 addr wdata s
  | .ill7 addr wdata => Sys2Proof.Machine.execIll7 addr wdata s
  | .voltCh0 data => Sys2Proof.Machine.execVoltCh0 data s
  | .voltCh1 data => Sys2Proof.Machine.execVoltCh1 data s
  | .voltCh2 data => Sys2Proof.Machine.execVoltCh2 data s
  | .voltCh3 data => Sys2Proof.Machine.execVoltCh3 data s
  | .rdreqCh0 => Sys2Proof.Machine.execRdreqCh0 s
  | .rdreqCh1 => Sys2Proof.Machine.execRdreqCh1 s
  | .rdreqCh2 => Sys2Proof.Machine.execRdreqCh2 s
  | .rdreqCh3 => Sys2Proof.Machine.execRdreqCh3 s
  | .ctrl pwr => Sys2Proof.Machine.execCtrl pwr s
  | .null => Sys2Proof.Machine.execNull s

end Sys2Proof.Machine
end

