-- ==== Sys2Proof/Decode.lean ====
section
/-!
DEFINITION. The decoder of request words and SPI command words, and the encoder (30_encoding.md R70 to R79,
spec/opcode_table.json). A control word's fixed bits are those of `CTRL_INIT`, so both take the configuration.
-/

namespace Sys2Proof

/-- Why a word is no instruction. -/
inductive DecodeError where
  /-- A 16-bit word that is none of the four kinds the block composes (30_encoding.md R75, R83). -/
  | unknownCommandWord
  deriving DecidableEq, Repr

/-- The op field `REQ[34:32]` (30_encoding.md R70). -/
def reqOp (w : ReqWord) : BitVec 3 := w.extractLsb' 32 3

/-- The address field `REQ[31:16]` (30_encoding.md R70). -/
def reqAddr (w : ReqWord) : Word16 := w.extractLsb' 16 16

/-- The payload field `REQ[15:0]` (30_encoding.md R70). -/
def reqData (w : ReqWord) : Word16 := w.extractLsb' 0 16

/-- A request word from its three fields (30_encoding.md R70). -/
def reqWord (op : BitVec 3) (addr wdata : Word16) : ReqWord :=
  (op.zeroExtend 35 <<< 32) ||| (addr.zeroExtend 35 <<< 16) ||| wdata.zeroExtend 35

/-- Every request word is an instruction: the eight op codes of 30_encoding.md R71 and R72. -/
def decodeReq (w : ReqWord) : Instr :=
  match (reqOp w).toNat with
  | 0 => .hrr (reqAddr w) (reqData w)
  | 1 => .hrw (reqAddr w) (reqData w)
  | 2 => .irr (reqAddr w) (reqData w)
  | 3 => .cr (reqAddr w) (reqData w)
  | 4 => .cw (reqAddr w) (reqData w)
  | 5 => .ill5 (reqAddr w) (reqData w)
  | 6 => .ill6 (reqAddr w) (reqData w)
  | _ => .ill7 (reqAddr w) (reqData w)

/-- The bits of a control word that no operation alters: 15:6 and 1:0 (10_state.md R25, R27). -/
def ctrlFixedMask : Word16 := 0xFFC3#16

/-- Whether a word is one of the other kinds than CTRL: a VOLT word, a read request or the null word (R83). -/
def isVoltRdreqOrNull (w : Word16) : Bool :=
  w.extractLsb' 12 4 == 1#4 || w.extractLsb' 12 4 == 2#4 || w.extractLsb' 12 4 == 3#4 || w.extractLsb' 12 4 == 4#4 ||
    w == 0x9000#16 || w == 0xA000#16 || w == 0xB000#16 || w == 0xC000#16 || w == 0x0000#16

/-- The SPI command word `w` as an instruction. DESIGN CHOICE (log 11): the spec does not say how a control word is told
from the other kinds (91_not_in_source.md N4); a word that fits two kinds is read as the other kind, never as CTRL. -/
def decodeSpi (c : Config) (w : Word16) : Except DecodeError Instr :=
  match (w.extractLsb' 12 4).toNat with
  | 1 => .ok (.voltCh0 (w.extractLsb' 0 12))
  | 2 => .ok (.voltCh1 (w.extractLsb' 0 12))
  | 3 => .ok (.voltCh2 (w.extractLsb' 0 12))
  | 4 => .ok (.voltCh3 (w.extractLsb' 0 12))
  | _ =>
    if w = 0x9000#16 then .ok .rdreqCh0
    else if w = 0xA000#16 then .ok .rdreqCh1
    else if w = 0xB000#16 then .ok .rdreqCh2
    else if w = 0xC000#16 then .ok .rdreqCh3
    else if w = 0x0000#16 then .ok .null
    else if w &&& ctrlFixedMask = c.ctrlInit &&& ctrlFixedMask then .ok (.ctrl (w.extractLsb' 2 4))
    else .error .unknownCommandWord

/-- The decoder: an encoded word of either width. -/
def decode (c : Config) : Code → Except DecodeError Instr
  | .req w => .ok (decodeReq w)
  | .spi w => decodeSpi c w

/-- The control word with power bits `pwr` (30_encoding.md R78). -/
def ctrlPattern (ctrlInit : Word16) (pwr : BitVec 4) : Word16 :=
  ((ctrlInit.extractLsb' 6 10).zeroExtend 16 <<< 6) ||| (pwr.zeroExtend 16 <<< 2) ||| (ctrlInit.extractLsb' 0 2).zeroExtend 16

/-- The VOLT word with channel nibble `n` and data field `v` (30_encoding.md R76). -/
def voltPattern (n : BitVec 4) (v : Volt12) : Word16 := (n.zeroExtend 16 <<< 12) ||| v.zeroExtend 16

/-- The encoder: each row's word, from the bit patterns of spec/opcode_table.json. -/
def encode (c : Config) : Instr → Code
  | .hrr a d => .req (reqWord 0 a d)
  | .hrw a d => .req (reqWord 1 a d)
  | .irr a d => .req (reqWord 2 a d)
  | .cr a d => .req (reqWord 3 a d)
  | .cw a d => .req (reqWord 4 a d)
  | .ill5 a d => .req (reqWord 5 a d)
  | .ill6 a d => .req (reqWord 6 a d)
  | .ill7 a d => .req (reqWord 7 a d)
  | .voltCh0 v => .spi (voltPattern 1#4 v)
  | .voltCh1 v => .spi (voltPattern 2#4 v)
  | .voltCh2 v => .spi (voltPattern 3#4 v)
  | .voltCh3 v => .spi (voltPattern 4#4 v)
  | .rdreqCh0 => .spi 0x9000#16
  | .rdreqCh1 => .spi 0xA000#16
  | .rdreqCh2 => .spi 0xB000#16
  | .rdreqCh3 => .spi 0xC000#16
  | .ctrl p => .spi (ctrlPattern c.ctrlInit p)
  | .null => .spi 0x0000#16

/-- The word a table row's bits name: rows of at most 16 bits are SPI words, the others request words. Bits above the
row's own width must be 0. -/
def codeOfBits (nbits w : Nat) : Option Code :=
  if nbits ≤ 16 then
    if w < 2 ^ 16 then some (.spi (BitVec.ofNat 16 w)) else none
  else if w < 2 ^ 35 then some (.req (BitVec.ofNat 35 w)) else none

/-- What the decoder reads from an instruction whose bits are `w`, in the configuration of `State.reset`. -/
def decodeTableWord (nbits w : Nat) : Option Instr :=
  match codeOfBits nbits w with
  | some code => (decode Config.cfgA code).toOption
  | none => none

end Sys2Proof
end

