-- ==== Sys2Proof/WellFormed.lean ====
section
/-!
DEFINITION. The constraints of 00_scope.md R8 and 70_reset_and_hazards.md R335 on a configuration, clause by clause, and
when an instruction is well formed.
-/

namespace Sys2Proof

/-- `NUM_CHIPS` is even, at least 2, and `4·NUM_CHIPS ≤ 2^16`. -/
def Config.chipsOk (c : Config) : Bool :=
  c.numChips % 2 == 0 && 2 ≤ c.numChips && 4 * c.numChips ≤ 2 ^ 16

/-- `BOARDS_PER_SIPM` is at least 1 and divides `NUM_GROUPS`, when the topology is SIPM. -/
def Config.topologyOk (c : Config) : Bool :=
  match c.topology with
  | .board => true
  | .sipm n => 1 ≤ n && c.numGroups % n == 0

/-- `CTRL_INIT[5:2] = 0b0000`. -/
def Config.ctrlInitOk (c : Config) : Bool := c.ctrlInit.extractLsb' 2 4 == 0#4

/-- DIRECT: `CS_MAP` is an injective map from the chips into at least `NUM_CHIPS` lines. DECODED:
`2^DEC_LINES ≥ NUM_CHIPS`. -/
def Config.csOk (c : Config) : Bool :=
  match c.cs with
  | .direct n m => c.numChips ≤ n && m.length == c.numChips && decide m.Nodup && m.all (· < n)
  | .decoded n => c.numChips ≤ 2 ^ n

/-- `TEMP_SPAN` is at least 1 and `DAC_SPAN + TEMP_SPAN ≤ 2^16`, when there is a temperature domain. -/
def Config.tempOk (c : Config) : Bool :=
  match c.tempSpan with
  | none => true
  | some n => 1 ≤ n && c.dacSpan + n ≤ 2 ^ 16

/-- Every constraint of 00_scope.md R8 holds. -/
def Config.valid (c : Config) : Bool :=
  c.chipsOk && c.topologyOk && c.ctrlInitOk && c.csOk && c.tempOk

/-- A well-formed instruction. Every field of a request, a VOLT word or a read request may hold any value of its
width; a control word is well formed where its word is not also one of another kind (log 11). -/
def Instr.wf (c : Config) : Instr → Bool
  | .hrr _ _ => true
  | .hrw _ _ => true
  | .irr _ _ => true
  | .cr _ _ => true
  | .cw _ _ => true
  | .ill5 _ _ => true
  | .ill6 _ _ => true
  | .ill7 _ _ => true
  | .voltCh0 _ => true
  | .voltCh1 _ => true
  | .voltCh2 _ => true
  | .voltCh3 _ => true
  | .rdreqCh0 => true
  | .rdreqCh1 => true
  | .rdreqCh2 => true
  | .rdreqCh3 => true
  | .ctrl p => !isVoltRdreqOrNull (ctrlPattern c.ctrlInit p)
  | .null => true

end Sys2Proof
end

