-- ==== Sys2Proof/Machine/Fetch.lean ====
section
/-!
DEFINITION. What the next step is: the next input when PHASE is IDLE (30_encoding.md R74), the next bus operation of the
transaction in progress when it is BUSY (log 10); and how a table row's word is placed there.
-/

namespace Sys2Proof.Machine

/-- What the next step does: run an instruction from a state, or reach an outcome without one. -/
inductive Fetched where
  | run (i : Instr) (s : State)
  | done (o : Host.Outcome State Fault Refusal)

/-- PHASE = IDLE: the next request is accepted (30_encoding.md R74), or RST resets the block (70_reset_and_hazards.md
R330). With no input, nothing happens (60_exceptions.md R307). -/
def fetchInput (s : State) : Fetched :=
  match s.inbox with
  | [] => .done (.next s)
  | .rst :: rest => .done (.next (applyReset { s with inbox := rest }))
  | .request w :: rest => .run (decodeReq w) { s with inbox := rest, phase := .busy }

/-- PHASE = BUSY: the transaction runs on (43_control_engine.md R169), one bus operation a step (log 10); after its last
one PHASE is IDLE. -/
def fetchSeq (s : State) : Fetched :=
  match s.seq with
  | [] => .done (.next { s with phase := .idle })
  | .send w :: rest =>
    match decodeSpi s.cfg w with
    | .ok i => .run i { s with seq := rest }
    | .error _ => .done (.refused .unknownCommandWord)
  | .deselect :: rest => .done (outcome (deselect { s with seq := rest }))
  | .strobe :: rest => .done (outcome (strobe { s with seq := rest }))

/-- A configuration that breaks a constraint is refused (70_reset_and_hazards.md R335, log 14). -/
def fetch (s : State) : Fetched :=
  if s.cfg.valid then
    match s.phase with
    | .idle => fetchInput s
    | .busy => fetchSeq s
  else .done (.refused .badConfiguration)

/-- What follows the command word `w` when it is placed by itself. DESIGN CHOICE (log 10): the spec has command words only
inside transactions, so what follows a lone one is the model's. It is the rest of the transaction of 43_control_engine.md
R172 that the word belongs to: after a VOLT word the deselect and the strobe, after a CTRL word the null word where
`NULL_WORD_AFTER_CTRL` is true (00_scope.md R3, 43_control_engine.md R166) and the deselect, after an RDREQ word the
deselect. A lone NULL word ends a control transaction, so the deselect follows it. -/
def seqAfter (c : Config) (w : Word16) : List SeqOp :=
  match decodeSpi c w with
  | .ok (.voltCh0 _) => [.deselect, .strobe]
  | .ok (.voltCh1 _) => [.deselect, .strobe]
  | .ok (.voltCh2 _) => [.deselect, .strobe]
  | .ok (.voltCh3 _) => [.deselect, .strobe]
  | .ok (.ctrl _) => if c.nullWordAfterCtrl then [.send nullWord, .deselect] else [.deselect]
  | _ => [.deselect]

/-- The state inside a transaction whose next bus operation transfers `w`: a chip is selected (chip 0 where none is,
DESIGN CHOICE, log 10), PHASE is BUSY. DESIGN CHOICE (log 21): where a transaction is in progress already, `w` is placed in
its window, and `w` with what follows it takes the place of all the operations that were still to run. -/
def placeCommandWord (w : Word16) (s : State) : State :=
  let s := match s.sel with
    | some _ => s
    | none => openWindow 0 s
  { s with phase := .busy, seq := .send w :: seqAfter s.cfg w }

/-- The state in which `w` is the next request. A request is accepted between requests only, with PHASE IDLE and nothing
selected (10_state.md R32). DESIGN CHOICE (log 21): where a transaction is in progress, its window is closed with the
deselect's events first, and the operations that were still to run are dropped. -/
def placeRequest (w : ReqWord) (s : State) : State :=
  let s := match s.sel with
    | some j => closeWindow j s
    | none => s
  { s with phase := .idle, seq := [], inbox := .request w :: s.inbox }

/-- The state in which the word of a table row is what the next step fetches. -/
def placeCode (code : Code) (s : State) : State :=
  match code with
  | .spi w => placeCommandWord w s
  | .req w => placeRequest w s

end Sys2Proof.Machine
end

