-- ==== Sys2Proof/Machine/Step.lean ====
section
/-!
DEFINITION. One step of the block: one whole request (00_scope.md R13), one reset, or, in a state that shows a
transaction in progress, one bus operation of it (log 10).
-/

namespace Sys2Proof.Machine

def step (s : State) : Host.Outcome State Fault Refusal :=
  match fetch s with
  | .run i t => exec i t
  | .done o => o

/-- `s` with the instruction whose bits are `w` placed where `step` takes its next one from: the request port for a
request word, the transaction in progress for an SPI command word. Bits that fit no word leave the state as it is. -/
def State.withFetchWord (s : State) (nbits w : Nat) : State :=
  match codeOfBits nbits w with
  | some code => placeCode code s
  | none => s

end Sys2Proof.Machine
end

