-- ==== Sys2Proof/Machine/Flags.lean ====
section
/-!
DEFINITION. The block has no flags or condition codes (10_state.md R34). What takes their place is the status of a
response; this file gives its code and the response word (30_encoding.md R73).
-/

namespace Sys2Proof.Machine

/-- The two-bit code of a status (30_encoding.md R73). -/
def statusCode : Status → BitVec 2
  | .ok => 0#2
  | .illegalFunction => 1#2
  | .illegalDataAddress => 2#2

/-- The response word `RSP[17:0] = {status, rdata}` (30_encoding.md R73). -/
def responseWord (r : Response) : RspWord :=
  ((statusCode r.status).zeroExtend 18 <<< 16) ||| r.rdata.zeroExtend 18

end Sys2Proof.Machine
end

