-- ==== Sys2Proof/Safety.lean ====
section
/-!
DEFINITION. What counts as a safe run: the invariant of the block's state, the bus rules every event must keep, and the
plain reading of a request stream that the shadow arrays are held against.
-/

namespace Sys2Proof.Machine

/-- The line levels that go with the selection `sel` when `DEC_A` was last driven to `decA`: only the selected chip's
select is asserted and the load strobe is not (41_chip_select.md R126, R131, 10_state.md R30). -/
def Lines.selecting (c : Config) (sel : Option Nat) (decA : Nat) : Lines :=
  match c.cs with
  | .direct n m =>
    { csN := match sel with
        | none => List.replicate n true
        | some j => (List.replicate n true).set (csLine m j) false
      decA := 0, enN := true, ldacN := true }
  | .decoded _ => { csN := [], decA := decA, enN := sel.isNone, ldacN := true }

/-- `DEC_A` holds a value of its width, and the selected chip's index while one is selected (41_chip_select.md R127,
R129). In the DIRECT variant it stays 0 (log 16). -/
def decAOk (c : Config) (sel : Option Nat) (decA : Nat) : Prop :=
  match c.cs with
  | .direct _ _ => decA = 0
  | .decoded n => decA < 2 ^ n ∧ ∀ j, sel = some j → decA = j

/-- The bus operations `ops` can run to the end from the selection `sel`: words of a known kind while a chip is
selected, then the deselect, then strobes (43_control_engine.md R160). -/
def seqOk (c : Config) : Option Nat → List SeqOp → Bool
  | sel, [] => sel.isNone
  | some j, .send w :: rest => (decodeSpi c w).isOk && seqOk c (some j) rest
  | some _, .deselect :: rest => seqOk c none rest
  | none, .strobe :: rest => seqOk c none rest
  | _, _ => false

/-- The invariant of the block: a valid configuration (70_reset_and_hazards.md R335), arrays of the right lengths (10_state.md
R21, R24), the fixed bits of every control word (R27), lines that agree with SEL (41_chip_select.md R126), SCLK at its idle
level between transfers (10_state.md R31), a selected chip that exists, and nothing selected or pending when PHASE is IDLE
(R32). -/
structure Inv (s : State) : Prop where
  cfgValid : s.cfg.valid = true
  vcacheLength : s.vcache.length = s.cfg.dacSpan
  ccacheLength : s.ccache.length = s.cfg.numChips
  ccacheFixed : ∀ w ∈ s.ccache, w &&& ctrlFixedMask = s.cfg.ctrlInit &&& ctrlFixedMask
  linesAgree : s.lines = Lines.selecting s.cfg s.sel s.lines.decA
  decAInRange : decAOk s.cfg s.sel s.lines.decA
  sclkAtIdle : s.sclk = sclkIdle s.cfg
  selInRange : ∀ j, s.sel = some j → j < s.cfg.numChips
  idleNothingPending : s.phase = .idle → s.sel = none ∧ s.seq = []
  seqRuns : seqOk s.cfg s.sel s.seq = true

/-- Some select line is asserted: a chip may be enabled. -/
def windowOpen (c : Config) (l : Lines) : Bool :=
  match c.cs with
  | .direct _ _ => l.csN.any (!·)
  | .decoded _ => !l.enN

/-- Whether the bus rules allow an event at the present line levels: no select inside a window (20_memory.md R61), `DEC_A`
driven only while `EN_N = 1` (41_chip_select.md R129), transfers only inside a window (43_control_engine.md R160) and
never during a strobe, strobe edges and temperature calls only outside every window (R162, 44_request_ops.md R207). -/
def eventAllowed (c : Config) (l : Lines) : Event → Bool
  | .csLow _ => !windowOpen c l && l.ldacN
  | .csHigh _ => true
  | .decAddr _ => l.enN && l.ldacN
  | .enLow => !windowOpen c l && l.ldacN
  | .enHigh => true
  | .wait _ => true
  | .xfer _ _ => windowOpen c l && l.ldacN
  | .ldacLow => !windowOpen c l && l.ldacN
  | .ldacHigh => !windowOpen c l
  | .tempCall _ _ _ _ => !windowOpen c l && l.ldacN

/-- Every event of a trace is allowed at the levels the earlier ones left. -/
def busSafe (c : Config) (l : Lines) : List Event → Bool
  | [] => true
  | e :: rest => eventAllowed c l e && busSafe c (drive e l) rest

/-- What a trace shows whatever the chip-select variant: transfers, strobe edges and temperature calls, not the select
lines and not the waits (41_chip_select.md R120, R131). -/
def Event.isLogical : Event → Bool
  | .csLow _ => false
  | .csHigh _ => false
  | .decAddr _ => false
  | .enLow => false
  | .enHigh => false
  | .wait _ => false
  | .xfer _ _ => true
  | .ldacLow => true
  | .ldacHigh => true
  | .tempCall _ _ _ _ => true

/-- The variant-independent part of a trace. -/
def logicalTrace (es : List Event) : List Event := es.filter Event.isLogical

/-- The events of updateVoltage (43_control_engine.md R172). -/
def updateTrace (c : Config) (a rawV rx : Word16) : List Event :=
  selectEvents c (chipSelOf a) ++ [.xfer (voltWord (subOf a) rawV) rx] ++ deselectEvents c (chipSelOf a) ++ strobeEvents

/-- The events of readVoltageApprox (43_control_engine.md R172). -/
def readTrace (c : Config) (a rx : Word16) : List Event :=
  selectEvents c (chipSelOf a) ++ [.xfer (rdreqWord (subOf a)) rx] ++ deselectEvents c (chipSelOf a)

/-- The transfers of setPower that sends `w` when `n` draws were taken (43_control_engine.md R172). -/
def powerTransfers (c : Config) (w : Word16) (n : Nat) : List Event :=
  if c.nullWordAfterCtrl then [.xfer w (Config.rxDraw n), .xfer nullWord (Config.rxDraw (n + 1))]
  else [.xfer w (Config.rxDraw n)]

/-- The events of setPower that sends `w` when `n` draws were taken (43_control_engine.md R172). -/
def powerTrace (c : Config) (a w : Word16) (n : Nat) : List Event :=
  selectEvents c (chipSelOf a) ++ powerTransfers c w n ++ deselectEvents c (chipSelOf a)

/-- What `DEC_A` holds after chip `j` was selected: its index, and in the DIRECT variant what it held (41_chip_select.md
R127, R128, log 16). -/
def decAAfterSelect (c : Config) (j old : Nat) : Nat :=
  match c.cs with
  | .direct _ _ => old
  | .decoded _ => j

/-- The voltage an input stream leaves shadowed at channel `a`, read off the stream alone: the last holding-register
write to `a` since the last reset, clamped, or what was there before (10_state.md R21, 20_memory.md R60). -/
def shadowVoltageAfter (a : Word16) : List Input → Volt12 → Volt12
  | [], v => v
  | .rst :: rest, _ => shadowVoltageAfter a rest 0#12
  | .request w :: rest, v =>
    shadowVoltageAfter a rest
      (match decodeReq w with
        | .hrw b d => if b = a then clampVoltage d else v
        | _ => v)

/-- The power bit an input stream leaves shadowed at channel `a`, read off the stream alone: the last coil write to `a`
since the last reset, or what was there before (10_state.md R25, 20_memory.md R60). -/
def shadowPowerAfter (a : Word16) : List Input → Bool → Bool
  | [], b => b
  | .rst :: rest, _ => shadowPowerAfter a rest false
  | .request w :: rest, b =>
    shadowPowerAfter a rest
      (match decodeReq w with
        | .cw e d => if e = a then decide (d ≠ 0#16) else b
        | _ => b)

/-- How many of the inputs are requests. -/
def requestCount (ins : List Input) : Nat :=
  (ins.filter fun i => match i with
    | .request _ => true
    | .rst => false).length

end Sys2Proof.Machine
end

