-- ==== Sys2Proof/Certificates/Slice0/Obligations.lean ====
section
/-!
DEFINITION. The statements for the provers. Where a clause rests on a choice of the spec's own (92_eei_decisions.md D<n>)
or of the model (log <n>, notes/assumptions/<n>.md), the docstring names it.
-/

open Sys2Proof Sys2Proof.Machine

/-! ### Encodings -/

/-- Decode and encode agree: every well-formed instruction, with every operand, in every configuration, is what the
decoder reads from its word. The request layout is the spec's choice (D2, D3); the one form that is not well formed, a
control word equal to a word of another kind, is the model's choice (log 11). -/
def Obligations.DecodeOfEncodeIsSame : Prop :=
  ∀ (c : Config) (i : Instr), i.wf c = true → decode c (encode c i) = .ok i

/-- The other direction: a word that decodes is the word of what it decodes to, so no bit of it is dropped, and that
instruction is well formed. D2, D3, log 11 as above. -/
def Obligations.EncodeOfDecodeIsSame : Prop :=
  ∀ (c : Config) (code : Code) (i : Instr), decode c code = .ok i → encode c i = code ∧ i.wf c = true

/-- A few words written out from the encodings of 30_encoding.md and 95_test_vectors.md decode to what they stand for
(layout: D3; CTRL with the example pattern 0xA5C3). -/
def Obligations.KnownWordsDecode : Prop :=
  decodeReq 0x100050064#35 = .hrw 5#16 100#16 ∧ decodeReq 0x2000E0000#35 = .irr 14#16 0#16 ∧
    decodeReq 0x40007FF00#35 = .cw 7#16 0xFF00#16 ∧ decodeReq 0x700100000#35 = .ill7 16#16 0#16 ∧
    decodeSpi Config.cfgA 0x2064#16 = .ok (.voltCh1 100#12) ∧ decodeSpi Config.cfgA 0xB000#16 = .ok .rdreqCh2 ∧
    decodeSpi { Config.cfgA with ctrlInit := 0xA5C3#16 } 0xA5D3#16 = .ok (.ctrl 4#4)

/-- A VOLT word carries the 1-based channel in bits 15:12 and the raw payload's low 12 bits, not the clamped value, in
bits 11:0. That the raw payload feeds the field is the spec's choice (D25). -/
def Obligations.VoltWordFields : Prop :=
  ∀ (sub : Nat) (rawV : Word16), sub < 4 →
    (voltWord sub rawV).extractLsb' 12 4 = BitVec.ofNat 4 (sub + 1) ∧
      (voltWord sub rawV).extractLsb' 0 12 = rawV.extractLsb' 0 12

/-- R77 whole: bit 15 is 1, bits 14:12 are the 1-based channel, bits 11:0 are 0, and the four values. -/
def Obligations.ReadRequestWordFields : Prop :=
  (∀ sub, sub < 4 →
    (rdreqWord sub).getLsbD 15 = true ∧ (rdreqWord sub).extractLsb' 12 3 = BitVec.ofNat 3 (sub + 1) ∧
      (rdreqWord sub).extractLsb' 0 12 = 0#12 ∧ (rdreqWord sub).toNat = 0x8000 ||| ((sub + 1) <<< 12)) ∧
    rdreqWord 0 = 0x9000#16 ∧ rdreqWord 1 = 0xA000#16 ∧ rdreqWord 2 = 0xB000#16 ∧ rdreqWord 3 = 0xC000#16

/-- The readback value is the received word's bits 10:0 above a 0, so it is even and the bits 15:11 are lost
(30_encoding.md section 3). -/
def Obligations.ReadbackShiftsAndTruncates : Prop :=
  ∀ rx : Word16, (readback rx).getLsbD 0 = false ∧ (∀ k, k < 11 → (readback rx).getLsbD (k + 1) = rx.getLsbD k) ∧
    (readback rx).toNat = (rx.toNat * 2) % 4096

/-- The bit order of a word as the model's function `wireBits` gives it, bit 15 first, and `wordOfWire` reads it back. The
model has no wires and no step calls either function: that the order stands beside the machine is the model's choice
(log 17). The order itself is the spec's choice (D14). -/
def Obligations.WireOrderIsMostSignificantFirst : Prop :=
  ∀ w : Word16, (wireBits w).length = 16 ∧ (∀ k, k < 16 → (wireBits w)[k]? = some (w.getLsbD (15 - k))) ∧
    wordOfWire (wireBits w) = w

/-- A response word holds the status code in bits 17:16 and the data in bits 15:0; the codes are 0, 1 and 2, never 3. The format is
the spec's choice (D4). -/
def Obligations.ResponseWordFields : Prop :=
  ∀ r : Response, (responseWord r).extractLsb' 16 2 = statusCode r.status ∧
    (responseWord r).extractLsb' 0 16 = r.rdata ∧ (responseWord r).extractLsb' 16 2 ≠ 3#2 ∧
    statusCode .ok = 0#2 ∧ statusCode .illegalFunction = 1#2 ∧ statusCode .illegalDataAddress = 2#2

/-! ### Address translator -/

/-- R101 whole: which of the three results an address has. -/
def Obligations.TranslateClassifiesAddresses : Prop :=
  ∀ (c : Config) (a : Word16),
    (a.toNat < c.dacSpan → translateAddress c a = .dac (decompose c a)) ∧
      (∀ n, c.tempSpan = some n → c.dacSpan ≤ a.toNat → a.toNat < c.dacSpan + n →
        translateAddress c a = .temp (a.toNat - c.dacSpan)) ∧
      (∀ n, c.tempSpan = some n → c.dacSpan + n ≤ a.toNat → translateAddress c a = .outOfRange) ∧
      (c.tempSpan = none → c.dacSpan ≤ a.toNat → translateAddress c a = .outOfRange)

/-- R103 and R105 whole, with the chip and bank indices they are read from; a chip index from the DAC domain exists. -/
def Obligations.DecompositionFields : Prop :=
  ∀ (c : Config) (a : Word16),
    (decompose c a).chipSel = a.toNat / 4 ∧ (decompose c a).bank = a.toNat / 4 ∧
      (decompose c a).sub = a.toNat % 4 ∧ (decompose c a).sub < 4 ∧
      (decompose c a).chipInBoard = (decompose c a).chipSel % 2 ∧ (decompose c a).group = (decompose c a).chipSel / 2 ∧
      (a.toNat < c.dacSpan → (decompose c a).chipSel < c.numChips)

/-- Decomposing an address and recomposing it gives the address back, in both topologies. Which of `sipm` and `board` is
the major index is the spec's choice (D6). -/
def Obligations.RecomposeOfDecompose : Prop :=
  ∀ (c : Config) (a : Word16), recompose c (decompose c a) = a.toNat

/-- Every field of a DAC-domain decomposition is in its range, in both topologies (40_address_translator.md section 2; D5,
D6). -/
def Obligations.DecompositionInRange : Prop :=
  ∀ (c : Config) (a : Word16), c.valid = true → a.toNat < c.dacSpan →
    (decompose c a).chipSel < c.numChips ∧ (decompose c a).sub < 4 ∧ (decompose c a).bank < c.numChips ∧
      (decompose c a).chipInBoard < 2 ∧ (decompose c a).group < c.numGroups ∧
      (∀ n, c.topology = .sipm n → (decompose c a).board < n ∧
        ∃ k, (decompose c a).sipm = some k ∧ k < c.numGroups / n)

/-! ### Chip-select multiplexer -/

/-- In both variants `select(j)` enables chip `j` and no other, and the `deselect()` after it enables none
(41_chip_select.md section 4); and the events of both, written out for each variant with their waits and order (sections 2
and 3). The lines, the decoder and the waits are the spec's choices D11, D12, D13, D20. -/
def Obligations.SelectEnablesExactlyThatChip : Prop :=
  ∀ (s : State) (j : Nat), Inv s → s.sel = none → j < s.cfg.numChips →
    ∃ t u, select j s = .ok t ∧ t.sel = some j ∧
      (∀ k, k < s.cfg.numChips → chipEnabled s.cfg t.lines k = decide (k = j)) ∧
      deselect t = .ok u ∧ u.sel = none ∧ (∀ k, k < s.cfg.numChips → chipEnabled s.cfg u.lines k = false) ∧
      (∀ n csMap, s.cfg.cs = .direct n csMap → ∃ line, csMap[j]? = some line ∧
        t.trace = s.trace ++ [.csLow line, .wait .tCsSetup] ∧ u.trace = t.trace ++ [.wait .tCsHold, .csHigh line]) ∧
      (∀ n, s.cfg.cs = .decoded n →
        t.trace = s.trace ++ [.decAddr j, .wait .tDecSetup, .enLow] ∧ u.trace = t.trace ++ [.wait .tDecHold, .enHigh])

/-- In every state of the invariant the enabled chip is the selected one and no other (41_chip_select.md section 4; D11,
D12, D13). -/
def Obligations.OnlySelectedChipIsEnabled : Prop :=
  ∀ s : State, Inv s → ∀ k, k < s.cfg.numChips → chipEnabled s.cfg s.lines k = decide (s.sel = some k)

/-- A broken precondition of `select`, `deselect`, a transfer or the strobe is a model fault. The first three faults are
the spec's choice (D19), those of the transfer and the strobe the model's (log 12), and so is which fault answers a
`select` that breaks both preconditions (log 20). -/
def Obligations.BrokenPreconditionsFault : Prop :=
  ∀ (s : State) (j k : Nat) (tx : Word16),
    (s.cfg.numChips ≤ j → select j s = .error .selectOutOfRange) ∧
      (j < s.cfg.numChips → s.sel = some k → select j s = .error .nestedSelect) ∧
      (s.sel = none → deselect s = .error .deselectWithoutSelect) ∧
      (s.sel = none → xfer tx s = .error .xferWithoutSelect) ∧
      (s.sel = some k → strobe s = .error .strobeInWindow)

/-! ### Shadow cache -/

/-- R140 whole: the entry becomes `min(w, 4095)` and nothing else changes. -/
def Obligations.CacheVoltageSaturates : Prop :=
  ∀ (s : State) (ch : Nat) (w : Word16), ch < s.vcache.length →
    ∃ t, cacheVoltage ch w s = .ok t ∧ t = { s with vcache := t.vcache } ∧
      (∃ v, t.vcache[ch]? = some v ∧ v.toNat = min w.toNat 4095) ∧ ∀ k, k ≠ ch → t.vcache[k]? = s.vcache[k]?

/-- R141 whole: the stored word comes back, so after R140, and after a whole updateVoltage, it is the clamped value. -/
def Obligations.ReadVoltageReturnsStored : Prop :=
  (∀ (s : State) (ch : Nat) (v : Volt12), s.vcache[ch]? = some v → readVoltage ch s = .ok v) ∧
    (∀ (s t : State) (ch : Nat) (w : Word16), cacheVoltage ch w s = .ok t →
      ∃ v, readVoltage ch t = .ok v ∧ v.toNat = min w.toNat 4095) ∧
    ∀ (s t : State) (a w : Word16), updateVoltage a w s = .ok t →
      ∃ v, readVoltage a.toNat t = .ok v ∧ v.toNat = min w.toNat 4095

/-- R142 whole: the entry is overwritten unmasked, nothing else changes, and after setPower the word it passed differs
from the old one in at most bit `s + 2`. -/
def Obligations.CacheControlOverwrites : Prop :=
  (∀ (s : State) (j : Nat) (w : Word16), j < s.ccache.length →
    ∃ t, cacheControl j w s = .ok t ∧ t = { s with ccache := t.ccache } ∧ t.ccache[j]? = some w ∧
      ∀ k, k ≠ j → t.ccache[k]? = s.ccache[k]?) ∧
    (∀ (w : Word16) (sub k : Nat) (on : Bool), k ≠ sub + 2 → (withPower w sub on).getLsbD k = w.getLsbD k) ∧
    ∀ (s t : State) (a : Word16) (on : Bool), setPower a on s = .ok t →
      ∃ old new, s.ccache[a.toNat / 4]? = some old ∧ t.ccache[a.toNat / 4]? = some new ∧
        (∀ k, k ≠ a.toNat % 4 + 2 → new.getLsbD k = old.getLsbD k) ∧
        ∀ j, j ≠ a.toNat / 4 → t.ccache[j]? = s.ccache[j]?

/-- R143 whole: bit `s + 2` of the control word. -/
def Obligations.ReadControlBitExtracts : Prop :=
  ∀ (s : State) (j sub : Nat) (w : Word16), sub < 4 → s.ccache[j]? = some w →
    readControlBit j sub s = .ok (w.getLsbD (sub + 2))

/-- An index outside an array is a model fault, which no request reaches; the spec's choice (D19). -/
def Obligations.CacheIndexOutOfRangeFaults : Prop :=
  ∀ (s : State) (k sub : Nat) (w : Word16),
    (s.vcache.length ≤ k → cacheVoltage k w s = .error .cacheIndexOutOfRange ∧
      readVoltage k s = .error .cacheIndexOutOfRange) ∧
      (s.ccache.length ≤ k → cacheControl k w s = .error .cacheIndexOutOfRange ∧
        readControlBit k sub s = .error .cacheIndexOutOfRange) ∧
      (4 ≤ sub → readControlBit k sub s = .error .cacheIndexOutOfRange)

/-! ### Transfer sequencer -/

/-- The words sent, the advisory result, and that no shadow changes (D16, the waits D20; the received word is the free value
of log 3, MOSI of log 5, SCLK's level log 6). -/
def Obligations.ReadVoltageApproxRunsOneReadback : Prop :=
  ∀ (s : State) (a : Word16), s.sel = none → a.toNat / 4 < s.cfg.numChips →
    readVoltageApprox a s = .ok (readback (Config.rxDraw s.draws),
      { s with
        trace := s.trace ++ readTrace s.cfg a (Config.rxDraw s.draws)
        lines := driveAll s.lines (readTrace s.cfg a (Config.rxDraw s.draws))
        sclk := sclkIdle s.cfg, mosi := Config.mosiIdle (s.draws + 1), draws := s.draws + 1 }) ∧
      (readback (Config.rxDraw s.draws)).toNat % 2 = 0 ∧
      (readback (Config.rxDraw s.draws)).toNat = (Config.rxDraw s.draws).toNat * 2 % 4096

/-- Bit `s + 2` set or cleared, the whole word sent in one window with the null word where the variant has one, and
nothing else changed (null word D15, the waits D20; MOSI is log 5, SCLK's level log 6). -/
def Obligations.SetPowerRunsOneControlTransaction : Prop :=
  ∀ (s : State) (a : Word16) (on : Bool) (w : Word16), s.sel = none → a.toNat / 4 < s.cfg.numChips →
    s.ccache[a.toNat / 4]? = some w →
    setPower a on s = .ok
      { s with
        ccache := s.ccache.set (a.toNat / 4) (withPower w (a.toNat % 4) on)
        trace := s.trace ++ powerTrace s.cfg a (withPower w (a.toNat % 4) on) s.draws
        lines := driveAll s.lines (powerTrace s.cfg a (withPower w (a.toNat % 4) on) s.draws)
        sclk := sclkIdle s.cfg
        mosi := Config.mosiIdle (s.draws + (powerTransfers s.cfg w s.draws).length)
        draws := s.draws + (powerTransfers s.cfg w s.draws).length } ∧
      (withPower w (a.toNat % 4) on).getLsbD (a.toNat % 4 + 2) = on ∧
      ∀ k, k ≠ a.toNat % 4 + 2 → (withPower w (a.toNat % 4) on).getLsbD k = w.getLsbD k

/-- R167 whole: the cached power bit, with no state to change. -/
def Obligations.GetPowerReadsCachedBit : Prop :=
  ∀ (s : State) (a w : Word16), s.ccache[a.toNat / 4]? = some w →
    getPower a s = .ok (w.getLsbD (a.toNat % 4 + 2))

/-! ### Request operations: what each does, and that it completes -/

/-- HRW in the DAC domain completes: the entry becomes the clamped payload, one update transaction joins the trace, with
the strobe's four events after the deselect, the response is OK with 0, and every other field is as before, but for
`DEC_A`, SCLK and MOSI, which the transaction drives. Rests on D25 (the data field), D20 (the waits), D12 (`DEC_A`), D26 (one
strobe line), D4 (the response); MOSI is the free value of log 5, SCLK's level log 6. -/
def Obligations.HrwWritesShadowAndUpdatesChip : Prop :=
  ∀ (s : State) (a d : Word16), Inv s → s.sel = none → a.toNat < s.cfg.dacSpan →
    exec (.hrw a d) s = .next
      { s with
        vcache := s.vcache.set a.toNat (clampVoltage d)
        lines := { s.lines with decA := decAAfterSelect s.cfg (chipSelOf a) s.lines.decA }
        sclk := sclkIdle s.cfg
        mosi := Config.mosiIdle (s.draws + 1)
        phase := .idle
        responses := s.responses ++ [Response.mk .ok 0#16]
        trace := s.trace ++ (selectEvents s.cfg (a.toNat / 4) ++
          [.xfer (voltWord (a.toNat % 4) d) (Config.rxDraw s.draws)] ++ deselectEvents s.cfg (a.toNat / 4) ++
          [.wait .tStrobeGap, .ldacLow, .wait .tLdacLow, .ldacHigh])
        draws := s.draws + 1 }

/-- HRR in the DAC domain completes: the response is OK with the shadowed voltage, and nothing else changes (D28 for the
width of the result, D4 for the response). -/
def Obligations.HrrReturnsShadow : Prop :=
  ∀ (s : State) (a d : Word16), Inv s → a.toNat < s.cfg.dacSpan →
    ∃ v, s.vcache[a.toNat]? = some v ∧ (voltResult v).toNat = v.toNat ∧
      exec (.hrr a d) s = .next
        { s with responses := s.responses ++ [Response.mk .ok (voltResult v)], phase := .idle }

/-- IRR in the DAC domain completes: one readback transaction, and the response is OK with twice the received word
modulo 4096; no shadow changes (D28, D4, D20; the received word is the free value of log 3). -/
def Obligations.IrrReturnsAdvisoryReadback : Prop :=
  ∀ (s : State) (a d : Word16), Inv s → s.sel = none → a.toNat < s.cfg.dacSpan →
    exec (.irr a d) s = .next
      { s with
        lines := { s.lines with decA := decAAfterSelect s.cfg (chipSelOf a) s.lines.decA }
        sclk := sclkIdle s.cfg
        mosi := Config.mosiIdle (s.draws + 1)
        phase := .idle
        responses := s.responses ++ [Response.mk .ok (voltResult (readback (Config.rxDraw s.draws)))]
        trace := s.trace ++ readTrace s.cfg a (Config.rxDraw s.draws)
        draws := s.draws + 1 } ∧
      (voltResult (readback (Config.rxDraw s.draws))).toNat = (Config.rxDraw s.draws).toNat * 2 % 4096

/-- CR in the DAC domain completes: the response is OK with the cached power bit, and nothing else changes (D28, D4). -/
def Obligations.CrReturnsPowerBit : Prop :=
  ∀ (s : State) (a d : Word16), Inv s → a.toNat < s.cfg.dacSpan →
    ∃ w, s.ccache[a.toNat / 4]? = some w ∧
      exec (.cr a d) s = .next
        { s with
          responses := s.responses ++ [Response.mk .ok (if w.getLsbD (a.toNat % 4 + 2) then 1#16 else 0#16)]
          phase := .idle }

/-- CW in the DAC domain completes: one bit of the chip's control word becomes `wdata ≠ 0`, the whole word is sent, the
response is OK with 0, and every other field is as before, but for the lines the transaction drives (D8 for the operand,
D15 for the null word, D20, D4; MOSI is the free value of log 5). -/
def Obligations.CwWritesPowerBitAndControlsChip : Prop :=
  ∀ (s : State) (a d : Word16), Inv s → s.sel = none → a.toNat < s.cfg.dacSpan →
    ∃ w, s.ccache[a.toNat / 4]? = some w ∧
      exec (.cw a d) s = .next
        { s with
          ccache := s.ccache.set (a.toNat / 4) (withPower w (a.toNat % 4) (decide (d ≠ 0#16)))
          lines := { s.lines with decA := decAAfterSelect s.cfg (chipSelOf a) s.lines.decA }
          sclk := sclkIdle s.cfg
          mosi := Config.mosiIdle (s.draws + if s.cfg.nullWordAfterCtrl then 2 else 1)
          phase := .idle
          responses := s.responses ++ [Response.mk .ok 0#16]
          trace := s.trace ++ powerTrace s.cfg a (withPower w (a.toNat % 4) (decide (d ≠ 0#16))) s.draws
          draws := s.draws + if s.cfg.nullWordAfterCtrl then 2 else 1 }

/-- ILL completes in every state and for every address: the response is ILLEGAL_FUNCTION with 0, and nothing else
changes, since the op is checked before the address (D9, D21, D22, D4). -/
def Obligations.IllAnswersIllegalFunction : Prop :=
  ∀ (s : State) (a d : Word16) (i : Instr), i = .ill5 a d ∨ i = .ill6 a d ∨ i = .ill7 a d →
    exec i s = .next { s with responses := s.responses ++ [Response.mk .illegalFunction 0#16], phase := .idle }

/-- An address above both domains: each of the five ops answers ILLEGAL_DATA_ADDRESS with 0 and changes nothing else
(D22, D4). -/
def Obligations.OutOfRangeAnswersIllegalAddress : Prop :=
  ∀ (s : State) (a d : Word16) (i : Instr), s.cfg.dacSpan + s.cfg.tempSpan.getD 0 ≤ a.toNat →
    i = .hrr a d ∨ i = .hrw a d ∨ i = .irr a d ∨ i = .cr a d ∨ i = .cw a d →
    exec i s = .next { s with responses := s.responses ++ [Response.mk .illegalDataAddress 0#16], phase := .idle }

/-- A write in the temperature domain answers ILLEGAL_DATA_ADDRESS with 0 and changes nothing else (D10, D22, D4). -/
def Obligations.TemperatureWriteAnswersIllegalAddress : Prop :=
  ∀ (s : State) (a d : Word16) (i : Instr) (n : Nat), s.cfg.tempSpan = some n → s.cfg.dacSpan ≤ a.toNat →
    a.toNat < s.cfg.dacSpan + n → i = .hrw a d ∨ i = .cw a d →
    exec i s = .next { s with responses := s.responses ++ [Response.mk .illegalDataAddress 0#16], phase := .idle }

/-- A read in the temperature domain forwards its op and offset in one event, answers what the unit draws, and changes
nothing else (D10; the answer is the free value of log 4). -/
def Obligations.TemperatureReadForwards : Prop :=
  ∀ (s : State) (a d : Word16) (i : Instr) (op : BitVec 3) (n : Nat), s.cfg.tempSpan = some n →
    s.cfg.dacSpan ≤ a.toNat → a.toNat < s.cfg.dacSpan + n →
    (i = .hrr a d ∧ op = 0#3) ∨ (i = .irr a d ∧ op = 2#3) ∨ (i = .cr a d ∧ op = 3#3) →
    exec i s = .next
      { s with
        phase := .idle
        responses := s.responses ++ [Response.mk (Config.tempStatus s.draws) (Config.tempData s.draws)]
        trace := s.trace ++
          [.tempCall op (a.toNat - s.cfg.dacSpan) (Config.tempStatus s.draws) (Config.tempData s.draws)]
        draws := s.draws + 1 }

/-! ### SPI command words -/

/-- An SPI command word completes while a chip is selected: exactly its word is transferred, the received word is a draw,
and nothing but the trace, the draws and the two SPI lines changes. That a word alone is one step is the model's choice
(log 10); the received word is free (log 3, D16), MOSI is free (log 5). -/
def Obligations.CommandWordTransfersItself : Prop :=
  ∀ (s : State) (i : Instr) (w : Word16) (j : Nat), encode s.cfg i = .spi w → s.sel = some j →
    exec i s = .next
      { s with
        trace := s.trace ++ [.xfer w (Config.rxDraw s.draws)]
        sclk := sclkIdle s.cfg
        mosi := Config.mosiIdle (s.draws + 1)
        draws := s.draws + 1 }

/-- No SPI command word is transferred while no chip is selected: the model faults (log 12). -/
def Obligations.CommandWordNeedsSelectedChip : Prop :=
  ∀ (s : State) (i : Instr) (w : Word16), encode s.cfg i = .spi w → s.sel = none →
    exec i s = .fault .xferWithoutSelect

/-- Every word a step sends is of one of the four kinds (30_encoding.md section 2; NULL's value is D15, the reading of a
word that fits two kinds is log 11). -/
def Obligations.EveryWordSentIsOfAKnownKind : Prop :=
  ∀ (s t : State) (es : List Event), Inv s → step s = .next t → t.trace = s.trace ++ es →
    ∀ tx rx, Event.xfer tx rx ∈ es → ∃ i, decodeSpi s.cfg tx = .ok i

/-- The control word a coil write sends is `CTRL_INIT` outside the four power bits, and carries the power state of all
four channels (30_encoding.md section 2, D7). -/
def Obligations.ControlWordKeepsFixedBits : Prop :=
  ∀ (s : State) (j sub : Nat) (w : Word16) (on : Bool), Inv s → s.ccache[j]? = some w → sub < 4 →
    ∃ pwr : BitVec 4, withPower w sub on = ctrlWord s.cfg.ctrlInit pwr ∧
      ∀ k, k < 4 → pwr.getLsbD k = if k = sub then on else w.getLsbD (k + 2)

/-! ### Who writes and reads the shadows -/

/-- R22 whole: VCACHE is written only by HRW in the DAC domain and read only by HRR in the DAC domain (every other
instruction does the same whatever VCACHE holds); each such write overwrites the entry through R140, and each such read
gives the entry back verbatim through R141, with no access to the chip. -/
def Obligations.VoltageShadowAccess : Prop :=
  (∀ (s t : State) (i : Instr), exec i s = .next t → t.vcache ≠ s.vcache →
    ∃ a d, i = .hrw a d ∧ a.toNat < s.cfg.dacSpan) ∧
    (∀ (s t : State) (i : Instr) (v : List Volt12), (¬ ∃ a d, i = .hrr a d ∧ a.toNat < s.cfg.dacSpan) →
      v.length = s.vcache.length → exec i s = .next t →
      ∃ v', exec i { s with vcache := v } = .next { t with vcache := v' }) ∧
    (∀ (s t : State) (a d : Word16), a.toNat < s.cfg.dacSpan → exec (.hrw a d) s = .next t →
      ∃ u, cacheVoltage a.toNat d s = .ok u ∧ t.vcache = u.vcache) ∧
    ∀ (s t : State) (a d : Word16), a.toNat < s.cfg.dacSpan → exec (.hrr a d) s = .next t →
      ∃ v r, readVoltage a.toNat s = .ok v ∧ t.responses = s.responses ++ [r] ∧ r.rdata.toNat = v.toNat ∧
        t.trace = s.trace

/-- Who accesses CCACHE (10_state.md section 1): it is written only by CW in the DAC domain, through setPower, which reads
the word and alters one bit of it; it is read by CW and by CR there, which answers getPower; no instruction changes its
number of entries. The rule says "Read by"; that nothing else reads it is an inference from its list. -/
def Obligations.ControlShadowAccess : Prop :=
  (∀ (s t : State) (i : Instr), exec i s = .next t → t.ccache ≠ s.ccache →
    ∃ a d, i = .cw a d ∧ a.toNat < s.cfg.dacSpan) ∧
    (∀ (s t : State) (i : Instr) (cs : List Word16),
      (¬ ∃ a d, (i = .cw a d ∨ i = .cr a d) ∧ a.toNat < s.cfg.dacSpan) →
      cs.length = s.ccache.length → exec i s = .next t →
      ∃ cs', exec i { s with ccache := cs } = .next { t with ccache := cs' }) ∧
    (∀ (s t : State) (a d : Word16), a.toNat < s.cfg.dacSpan → exec (.cw a d) s = .next t →
      ∃ on u old new, setPower a on s = .ok u ∧ t.ccache = u.ccache ∧ s.ccache[a.toNat / 4]? = some old ∧
        t.ccache[a.toNat / 4]? = some new ∧ (∀ k, k ≠ a.toNat % 4 + 2 → new.getLsbD k = old.getLsbD k) ∧
        ∀ j, j ≠ a.toNat / 4 → t.ccache[j]? = s.ccache[j]?) ∧
    (∀ (s t : State) (a d : Word16), a.toNat < s.cfg.dacSpan → exec (.cr a d) s = .next t →
      ∃ b r, getPower a s = .ok b ∧ t.responses = s.responses ++ [r] ∧ r.rdata.toNat = b.toNat ∧
        t.trace = s.trace ∧ t.ccache = s.ccache) ∧
    ∀ (s t : State) (i : Instr), exec i s = .next t → t.ccache.length = s.ccache.length

/-- A coil write sets its own coil to `wdata ≠ 0` and no other, also not one of the same chip (42_register_cache.md R145's consequence,
95_test_vectors.md W4; the operand is D8). -/
def Obligations.CoilWriteChangesOneCoil : Prop :=
  ∀ (s t : State) (a b d : Word16), Inv s → a.toNat < s.cfg.dacSpan → b.toNat < s.cfg.dacSpan →
    exec (.cw a d) s = .next t → getPower b t = if b = a then .ok (decide (d ≠ 0#16)) else getPower b s

/-! ### Responses and steps -/

/-- Every request answers exactly one response, appended after the earlier ones, and leaves PHASE IDLE
(30_encoding.md R74 is the spec's choice D1). -/
def Obligations.EveryRequestAnswersOnce : Prop :=
  ∀ (s t : State) (w : ReqWord), exec (decodeReq w) s = .next t →
    t.phase = .idle ∧ ∃ r, t.responses = s.responses ++ [r]

/-- While PHASE is IDLE a step takes the next request off the port and runs what it decodes to; PHASE is BUSY meanwhile
(D1, log 7). -/
def Obligations.StepRunsNextRequest : Prop :=
  ∀ (s : State) (w : ReqWord) (rest : List Input), s.cfg.valid = true → s.phase = .idle →
    s.inbox = .request w :: rest → step s = exec (decodeReq w) { s with inbox := rest, phase := .busy }

/-- While PHASE is BUSY a step runs the next word of the transaction in progress (the model's choice, log 10). -/
def Obligations.StepRunsNextCommandWord : Prop :=
  ∀ (s : State) (w : Word16) (i : Instr) (rest : List SeqOp), s.cfg.valid = true → s.phase = .busy →
    s.seq = .send w :: rest → decodeSpi s.cfg w = .ok i → step s = exec i { s with seq := rest }

/-- A step is refused with `badConfiguration` exactly in a configuration that breaks one of the constraints of
00_scope.md section 3 and 70_reset_and_hazards.md section 2, written out here (D5, D6, D7, D10, D11, D12; where the refusal
stands is log 14). -/
def Obligations.BadConfigurationIsRefused : Prop :=
  (∀ s : State, s.cfg.valid = false → step s = .refused .badConfiguration) ∧
    ∀ s : State, step s = .refused .badConfiguration ↔
      ¬ (s.cfg.numChips % 2 = 0 ∧ 2 ≤ s.cfg.numChips ∧ 4 * s.cfg.numChips ≤ 2 ^ 16 ∧
        (∀ n, s.cfg.topology = .sipm n → 1 ≤ n ∧ n ∣ s.cfg.numChips / 2) ∧
        s.cfg.ctrlInit.extractLsb' 2 4 = 0#4 ∧
        (∀ n csMap, s.cfg.cs = .direct n csMap →
          s.cfg.numChips ≤ n ∧ csMap.length = s.cfg.numChips ∧ csMap.Nodup ∧ ∀ k ∈ csMap, k < n) ∧
        (∀ n, s.cfg.cs = .decoded n → s.cfg.numChips ≤ 2 ^ n) ∧
        (∀ n, s.cfg.tempSpan = some n → 1 ≤ n ∧ 4 * s.cfg.numChips + n ≤ 2 ^ 16))

/-- With no request and no reset nothing happens (60_exceptions.md section 3, D1; log 7). -/
def Obligations.NothingHappensBetweenRequests : Prop :=
  ∀ s : State, s.cfg.valid = true → s.phase = .idle → s.inbox = [] → step s = .next s

/-- No step writes a parameter (10_state.md R35; that State carries the configuration is log 1). -/
def Obligations.NoStepWritesConfiguration : Prop :=
  ∀ s t : State, step s = .next t → t.cfg = s.cfg

/-! ### Reset -/

/-- R331 whole: after reset every voltage shadow is 0. -/
def Obligations.ResetClearsVoltageShadow : Prop :=
  ∀ (c : Config) (k : Nat), k < c.dacSpan → (State.resetWith c).vcache[k]? = some 0#12

/-- After reset every control word is `CTRL_INIT`, so every coil reads off (D7). -/
def Obligations.ResetTurnsEveryCoilOff : Prop :=
  ∀ c : Config, c.valid = true →
    (∀ j, j < c.numChips → (State.resetWith c).ccache[j]? = some c.ctrlInit) ∧
      ∀ a : Word16, a.toNat < c.dacSpan → getPower a (State.resetWith c) = .ok false

/-- RST leaves both shadows at their reset values, every line at its idle level, nothing selected and PHASE IDLE, and
emits no event (D7, D13, D17, D27; SCLK's level is log 6, what stays of the model's own fields is log 9). -/
def Obligations.ResetInputIdlesLinesWithoutEvents : Prop :=
  ∀ (s : State) (rest : List Input), s.cfg.valid = true → s.phase = .idle → s.inbox = .rst :: rest →
    ∃ t, step s = .next t ∧ t.lines = Lines.idle s.cfg ∧ t.sclk = sclkIdle s.cfg ∧ t.phase = .idle ∧ t.sel = none ∧
      t.vcache = List.replicate s.cfg.dacSpan 0#12 ∧ t.ccache = List.replicate s.cfg.numChips s.cfg.ctrlInit ∧
      t.trace = s.trace ∧ t.responses = s.responses ∧ t.inbox = rest ∧ t.cfg = s.cfg

/-- The invariant holds at reset, in every valid configuration and at `State.reset` (whose configuration is log 2). -/
def Obligations.ResetMeetsInvariant : Prop :=
  (∀ c : Config, c.valid = true → Inv (State.resetWith c)) ∧ Inv State.reset

/-! ### Whole machine -/

/-- Every step keeps the invariant: the array lengths, the fixed bits of every control word, the lines that agree with
SEL, nothing selected between requests. -/
def Obligations.EveryStepKeepsInvariant : Prop :=
  ∀ s t : State, Inv s → step s = .next t → Inv t

/-- From a state of the invariant every step has a next state: no request reaches a model fault or a refusal (44_request_ops.md
section 3). -/
def Obligations.EveryStepCompletes : Prop :=
  ∀ s : State, Inv s → ∃ t, step s = .next t

/-- Every step keeps the bus rules: the events it adds, from the present line levels, have no transfer outside a window,
no second select inside one, no `DEC_A` change while the decoder is enabled and no strobe inside a window; and the lines
move only by events, or by RST, which moves them without one (41_chip_select.md sections 3 and 4, 70_reset_and_hazards.md
sections 1 and 3; D1, D12, D13, D17, D20, D27; RST beside the inputs is log 9, the steps in the middle of a transaction are
log 10). -/
def Obligations.EveryStepKeepsBusRules : Prop :=
  ∀ s t : State, Inv s → step s = .next t →
    ∃ es, t.trace = s.trace ++ es ∧ busSafe s.cfg s.lines es = true ∧
      (t.lines = driveAll s.lines es ∨ (s.phase = .idle ∧ ∃ rest, s.inbox = .rst :: rest ∧ es = []))

/-- A run over any input stream serves all of it, in order, and leaves each voltage shadow at the last write to its
channel (20_memory.md section 3, D24). -/
def Obligations.RunLeavesLastWrittenVoltage : Prop :=
  ∀ s : State, Inv s → s.phase = .idle →
    ∃ t, Host.Core.run Sys2Proof.core s.inbox.length s = .next t ∧ t.inbox = [] ∧ t.phase = .idle ∧ Inv t ∧
      ∀ a : Word16, a.toNat < s.cfg.dacSpan →
        t.vcache[a.toNat]? = (s.vcache[a.toNat]?).map (shadowVoltageAfter a s.inbox)

/-- The same for the coils (20_memory.md section 3, D24, D8). -/
def Obligations.RunLeavesLastWrittenPower : Prop :=
  ∀ (s t : State) (a : Word16) (b : Bool), Inv s → s.phase = .idle → a.toNat < s.cfg.dacSpan →
    Host.Core.run Sys2Proof.core s.inbox.length s = .next t → getPower a s = .ok b →
    getPower a t = .ok (shadowPowerAfter a s.inbox b)

/-- A run over any input stream answers each request once and a reset not at all (30_encoding.md section 1, D1). -/
def Obligations.RunAnswersEachRequestOnce : Prop :=
  ∀ (s t : State), Inv s → s.phase = .idle → Host.Core.run Sys2Proof.core s.inbox.length s = .next t →
    ∃ rs, t.responses = s.responses ++ rs ∧ rs.length = requestCount s.inbox

/-- The two chip-select variants present one logical interface: two machines that differ only in the variant, the lines
and the trace answer a request alike, shadow alike, and add the same transfers, strobes and temperature calls
(41_chip_select.md section 4, D11, D12). -/
def Obligations.VariantsAreLogicallyEqual : Prop :=
  ∀ (s t : State) (w : ReqWord), Inv s → Inv t → s.sel = none →
    t = { s with cfg := { s.cfg with cs := t.cfg.cs }, lines := t.lines, trace := t.trace } →
    ∃ s' t' es fs, exec (decodeReq w) s = .next s' ∧ exec (decodeReq w) t = .next t' ∧
      s'.trace = s.trace ++ es ∧ t'.trace = t.trace ++ fs ∧ logicalTrace es = logicalTrace fs ∧
      t' = { s' with cfg := t.cfg, lines := t'.lines, trace := t'.trace }

/-- The voltage update as one atomic step does what its bus operations do one at a time: cache, select, then the
transfer of the VOLT word as an instruction of its own, the deselect and the strobe, each a step (43_control_engine.md
section 2; one step per request is D1, one step per bus operation is log 10). -/
def Obligations.AtomicUpdateIsItsBusOperations : Prop :=
  ∀ (s : State) (a d : Word16), Inv s → s.phase = .idle → a.toNat < s.cfg.dacSpan →
    ∃ u, Host.Core.run Sys2Proof.core 4
        { openWindow (chipSelOf a) { s with vcache := s.vcache.set a.toNat (clampVoltage d) } with
          phase := .busy, seq := [.send (voltWord (subOf a) d), .deselect, .strobe] } = .next u ∧
      exec (.hrw a d) s = .next (respond .ok 0#16 u)

/-- The same for the power set, with its null word where the variant has one (43_control_engine.md section 2, D1, D15,
log 10). -/
def Obligations.AtomicPowerSetIsItsBusOperations : Prop :=
  ∀ (s : State) (a d w : Word16), Inv s → s.phase = .idle → a.toNat < s.cfg.dacSpan →
    s.ccache[chipSelOf a]? = some w →
    ∃ u, Host.Core.run Sys2Proof.core (if s.cfg.nullWordAfterCtrl then 4 else 3)
        { openWindow (chipSelOf a)
            { s with ccache := s.ccache.set (chipSelOf a) (withPower w (subOf a) (decide (d ≠ 0#16))) } with
          phase := .busy
          seq := (if s.cfg.nullWordAfterCtrl then [.send (withPower w (subOf a) (decide (d ≠ 0#16))), .send 0x0000#16]
            else [.send (withPower w (subOf a) (decide (d ≠ 0#16)))]) ++ [.deselect] } = .next u ∧
      exec (.cw a d) s = .next (respond .ok 0#16 u)

/-- The same for the readback: IRR is the RDREQ word as an instruction of its own between its select and its deselect, and
its answer is decoded from the word that transfer received (43_control_engine.md section 2, D1, D16, D28, log 3, log 10). -/
def Obligations.AtomicReadbackIsItsBusOperations : Prop :=
  ∀ (s : State) (a d : Word16), Inv s → s.phase = .idle → a.toNat < s.cfg.dacSpan →
    ∃ u, Host.Core.run Sys2Proof.core 3
        { openWindow (chipSelOf a) s with phase := .busy, seq := [.send (rdreqWord (subOf a)), .deselect] } = .next u ∧
      Event.xfer (rdreqWord (subOf a)) (Config.rxDraw s.draws) ∈ u.trace ∧
      exec (.irr a d) s = .next (respond .ok (voltResult (readback (Config.rxDraw s.draws))) u)
end

