-- ==== Sys2Proof/Laws/State.lean ====
section
/-!
SUPPORT. What each named update of the state leaves in each field: one rewriting rule per update and field.
-/

namespace Sys2Proof.Machine

@[simp] theorem emit_cfg (e : Event) (s : State) : (emit e s).cfg = s.cfg := rfl
@[simp] theorem emit_vcache (e : Event) (s : State) : (emit e s).vcache = s.vcache := rfl
@[simp] theorem emit_ccache (e : Event) (s : State) : (emit e s).ccache = s.ccache := rfl
@[simp] theorem emit_lines (e : Event) (s : State) : (emit e s).lines = drive e s.lines := rfl
@[simp] theorem emit_sclk (e : Event) (s : State) : (emit e s).sclk = s.sclk := rfl
@[simp] theorem emit_mosi (e : Event) (s : State) : (emit e s).mosi = s.mosi := rfl
@[simp] theorem emit_phase (e : Event) (s : State) : (emit e s).phase = s.phase := rfl
@[simp] theorem emit_sel (e : Event) (s : State) : (emit e s).sel = s.sel := rfl
@[simp] theorem emit_seq (e : Event) (s : State) : (emit e s).seq = s.seq := rfl
@[simp] theorem emit_inbox (e : Event) (s : State) : (emit e s).inbox = s.inbox := rfl
@[simp] theorem emit_responses (e : Event) (s : State) : (emit e s).responses = s.responses := rfl
@[simp] theorem emit_trace (e : Event) (s : State) : (emit e s).trace = s.trace ++ [e] := rfl
@[simp] theorem emit_draws (e : Event) (s : State) : (emit e s).draws = s.draws := rfl

@[simp] theorem emitAll_cfg (es : List Event) (s : State) : (emitAll es s).cfg = s.cfg := rfl
@[simp] theorem emitAll_vcache (es : List Event) (s : State) : (emitAll es s).vcache = s.vcache := rfl
@[simp] theorem emitAll_ccache (es : List Event) (s : State) : (emitAll es s).ccache = s.ccache := rfl
@[simp] theorem emitAll_lines (es : List Event) (s : State) : (emitAll es s).lines = driveAll s.lines es := rfl
@[simp] theorem emitAll_sclk (es : List Event) (s : State) : (emitAll es s).sclk = s.sclk := rfl
@[simp] theorem emitAll_mosi (es : List Event) (s : State) : (emitAll es s).mosi = s.mosi := rfl
@[simp] theorem emitAll_phase (es : List Event) (s : State) : (emitAll es s).phase = s.phase := rfl
@[simp] theorem emitAll_sel (es : List Event) (s : State) : (emitAll es s).sel = s.sel := rfl
@[simp] theorem emitAll_seq (es : List Event) (s : State) : (emitAll es s).seq = s.seq := rfl
@[simp] theorem emitAll_inbox (es : List Event) (s : State) : (emitAll es s).inbox = s.inbox := rfl
@[simp] theorem emitAll_responses (es : List Event) (s : State) : (emitAll es s).responses = s.responses := rfl
@[simp] theorem emitAll_trace (es : List Event) (s : State) : (emitAll es s).trace = s.trace ++ es := rfl
@[simp] theorem emitAll_draws (es : List Event) (s : State) : (emitAll es s).draws = s.draws := rfl

@[simp] theorem transferred_cfg (tx rx : Word16) (s : State) : (transferred tx rx s).cfg = s.cfg := rfl
@[simp] theorem transferred_vcache (tx rx : Word16) (s : State) : (transferred tx rx s).vcache = s.vcache := rfl
@[simp] theorem transferred_ccache (tx rx : Word16) (s : State) : (transferred tx rx s).ccache = s.ccache := rfl
@[simp] theorem transferred_lines (tx rx : Word16) (s : State) : (transferred tx rx s).lines = s.lines := rfl
@[simp] theorem transferred_sclk (tx rx : Word16) (s : State) : (transferred tx rx s).sclk = sclkIdle s.cfg := rfl
@[simp] theorem transferred_mosi (tx rx : Word16) (s : State) : (transferred tx rx s).mosi = Config.mosiIdle (s.draws + 1) := rfl
@[simp] theorem transferred_phase (tx rx : Word16) (s : State) : (transferred tx rx s).phase = s.phase := rfl
@[simp] theorem transferred_sel (tx rx : Word16) (s : State) : (transferred tx rx s).sel = s.sel := rfl
@[simp] theorem transferred_seq (tx rx : Word16) (s : State) : (transferred tx rx s).seq = s.seq := rfl
@[simp] theorem transferred_inbox (tx rx : Word16) (s : State) : (transferred tx rx s).inbox = s.inbox := rfl
@[simp] theorem transferred_responses (tx rx : Word16) (s : State) : (transferred tx rx s).responses = s.responses := rfl
@[simp] theorem transferred_trace (tx rx : Word16) (s : State) : (transferred tx rx s).trace = s.trace ++ [.xfer tx rx] := rfl
@[simp] theorem transferred_draws (tx rx : Word16) (s : State) : (transferred tx rx s).draws = s.draws + 1 := rfl

@[simp] theorem openWindow_cfg (j : Nat) (s : State) : (openWindow j s).cfg = s.cfg := rfl
@[simp] theorem openWindow_vcache (j : Nat) (s : State) : (openWindow j s).vcache = s.vcache := rfl
@[simp] theorem openWindow_ccache (j : Nat) (s : State) : (openWindow j s).ccache = s.ccache := rfl
@[simp] theorem openWindow_lines (j : Nat) (s : State) : (openWindow j s).lines = driveAll s.lines (selectEvents s.cfg j) := rfl
@[simp] theorem openWindow_sclk (j : Nat) (s : State) : (openWindow j s).sclk = s.sclk := rfl
@[simp] theorem openWindow_mosi (j : Nat) (s : State) : (openWindow j s).mosi = s.mosi := rfl
@[simp] theorem openWindow_phase (j : Nat) (s : State) : (openWindow j s).phase = s.phase := rfl
@[simp] theorem openWindow_sel (j : Nat) (s : State) : (openWindow j s).sel = some j := rfl
@[simp] theorem openWindow_seq (j : Nat) (s : State) : (openWindow j s).seq = s.seq := rfl
@[simp] theorem openWindow_inbox (j : Nat) (s : State) : (openWindow j s).inbox = s.inbox := rfl
@[simp] theorem openWindow_responses (j : Nat) (s : State) : (openWindow j s).responses = s.responses := rfl
@[simp] theorem openWindow_trace (j : Nat) (s : State) : (openWindow j s).trace = s.trace ++ selectEvents s.cfg j := rfl
@[simp] theorem openWindow_draws (j : Nat) (s : State) : (openWindow j s).draws = s.draws := rfl

@[simp] theorem closeWindow_cfg (j : Nat) (s : State) : (closeWindow j s).cfg = s.cfg := rfl
@[simp] theorem closeWindow_vcache (j : Nat) (s : State) : (closeWindow j s).vcache = s.vcache := rfl
@[simp] theorem closeWindow_ccache (j : Nat) (s : State) : (closeWindow j s).ccache = s.ccache := rfl
@[simp] theorem closeWindow_lines (j : Nat) (s : State) : (closeWindow j s).lines = driveAll s.lines (deselectEvents s.cfg j) := rfl
@[simp] theorem closeWindow_sclk (j : Nat) (s : State) : (closeWindow j s).sclk = s.sclk := rfl
@[simp] theorem closeWindow_mosi (j : Nat) (s : State) : (closeWindow j s).mosi = s.mosi := rfl
@[simp] theorem closeWindow_phase (j : Nat) (s : State) : (closeWindow j s).phase = s.phase := rfl
@[simp] theorem closeWindow_sel (j : Nat) (s : State) : (closeWindow j s).sel = none := rfl
@[simp] theorem closeWindow_seq (j : Nat) (s : State) : (closeWindow j s).seq = s.seq := rfl
@[simp] theorem closeWindow_inbox (j : Nat) (s : State) : (closeWindow j s).inbox = s.inbox := rfl
@[simp] theorem closeWindow_responses (j : Nat) (s : State) : (closeWindow j s).responses = s.responses := rfl
@[simp] theorem closeWindow_trace (j : Nat) (s : State) : (closeWindow j s).trace = s.trace ++ deselectEvents s.cfg j := rfl
@[simp] theorem closeWindow_draws (j : Nat) (s : State) : (closeWindow j s).draws = s.draws := rfl

@[simp] theorem respond_cfg (st : Status) (rd : Word16) (s : State) : (respond st rd s).cfg = s.cfg := rfl
@[simp] theorem respond_vcache (st : Status) (rd : Word16) (s : State) : (respond st rd s).vcache = s.vcache := rfl
@[simp] theorem respond_ccache (st : Status) (rd : Word16) (s : State) : (respond st rd s).ccache = s.ccache := rfl
@[simp] theorem respond_lines (st : Status) (rd : Word16) (s : State) : (respond st rd s).lines = s.lines := rfl
@[simp] theorem respond_sclk (st : Status) (rd : Word16) (s : State) : (respond st rd s).sclk = s.sclk := rfl
@[simp] theorem respond_mosi (st : Status) (rd : Word16) (s : State) : (respond st rd s).mosi = s.mosi := rfl
@[simp] theorem respond_phase (st : Status) (rd : Word16) (s : State) : (respond st rd s).phase = .idle := rfl
@[simp] theorem respond_sel (st : Status) (rd : Word16) (s : State) : (respond st rd s).sel = s.sel := rfl
@[simp] theorem respond_seq (st : Status) (rd : Word16) (s : State) : (respond st rd s).seq = s.seq := rfl
@[simp] theorem respond_inbox (st : Status) (rd : Word16) (s : State) : (respond st rd s).inbox = s.inbox := rfl
@[simp] theorem respond_responses (st : Status) (rd : Word16) (s : State) : (respond st rd s).responses = s.responses ++ [Response.mk st rd] := rfl
@[simp] theorem respond_trace (st : Status) (rd : Word16) (s : State) : (respond st rd s).trace = s.trace := rfl
@[simp] theorem respond_draws (st : Status) (rd : Word16) (s : State) : (respond st rd s).draws = s.draws := rfl

@[simp] theorem applyReset_cfg (s : State) : (applyReset s).cfg = s.cfg := rfl
@[simp] theorem applyReset_vcache (s : State) : (applyReset s).vcache = List.replicate s.cfg.dacSpan 0#12 := rfl
@[simp] theorem applyReset_ccache (s : State) : (applyReset s).ccache = List.replicate s.cfg.numChips s.cfg.ctrlInit := rfl
@[simp] theorem applyReset_lines (s : State) : (applyReset s).lines = Lines.idle s.cfg := rfl
@[simp] theorem applyReset_sclk (s : State) : (applyReset s).sclk = sclkIdle s.cfg := rfl
@[simp] theorem applyReset_mosi (s : State) : (applyReset s).mosi = Config.mosiIdle s.draws := rfl
@[simp] theorem applyReset_phase (s : State) : (applyReset s).phase = .idle := rfl
@[simp] theorem applyReset_sel (s : State) : (applyReset s).sel = none := rfl
@[simp] theorem applyReset_seq (s : State) : (applyReset s).seq = [] := rfl
@[simp] theorem applyReset_inbox (s : State) : (applyReset s).inbox = s.inbox := rfl
@[simp] theorem applyReset_responses (s : State) : (applyReset s).responses = s.responses := rfl
@[simp] theorem applyReset_trace (s : State) : (applyReset s).trace = s.trace := rfl
@[simp] theorem applyReset_draws (s : State) : (applyReset s).draws = s.draws := rfl

end Sys2Proof.Machine
end

