-- ==== Sys2Proof/Laws/Ops.lean ====
section
/-!
SUPPORT. For each shared operation, all it can do, said once: when it answers, and with which state.
-/

namespace Sys2Proof.Machine

/-! ### Events -/

@[simp] theorem driveAll_nil (l : Lines) : driveAll l [] = l := rfl

@[simp] theorem driveAll_cons (l : Lines) (e : Event) (es : List Event) :
    driveAll l (e :: es) = driveAll (drive e l) es := rfl

@[simp] theorem driveAll_append (l : Lines) (es fs : List Event) :
    driveAll l (es ++ fs) = driveAll (driveAll l es) fs := by
  simp [driveAll, List.foldl_append]

/-- Emitting a list of events is emitting its first event and then the rest. -/
theorem emitAll_cons (e : Event) (es : List Event) (s : State) : emitAll (e :: es) s = emitAll es (emit e s) := by
  simp [emitAll, emit, driveAll]

theorem busSafe_append (c : Config) (l : Lines) (es fs : List Event) :
    busSafe c l (es ++ fs) = (busSafe c l es && busSafe c (driveAll l es) fs) := by
  induction es generalizing l with
  | nil => simp [busSafe]
  | cons e es ih => simp [busSafe, ih, Bool.and_assoc]

@[simp] theorem logicalTrace_append (es fs : List Event) :
    logicalTrace (es ++ fs) = logicalTrace es ++ logicalTrace fs := by
  simp [logicalTrace]

/-! ### Outcomes -/

@[simp] theorem outcome_ok (s : State) : outcome (.ok s) = .next s := rfl

@[simp] theorem outcome_error (f : Fault) : outcome (.error f) = .fault f := rfl

theorem outcome_eq_next {r : Except Fault State} {t : State} : outcome r = .next t ↔ r = .ok t := by
  cases r <;> simp [outcome]

/-- A unit's operation answers or faults; it never refuses. -/
theorem outcome_ne_refused (r : Except Fault State) (q : Refusal) : outcome r ≠ .refused q := by
  cases r <;> simp [outcome]

/-! ### Transfers -/

theorem xfer_of_selected {s : State} {j : Nat} (tx : Word16) (h : s.sel = some j) :
    xfer tx s = .ok (Config.rxDraw s.draws, transferred tx (Config.rxDraw s.draws) s) := by
  simp [xfer, h]

theorem xfer_of_unselected {s : State} (tx : Word16) (h : s.sel = none) : xfer tx s = .error .xferWithoutSelect := by
  simp [xfer, h]

theorem xferOnly_of_selected {s : State} {j : Nat} (tx : Word16) (h : s.sel = some j) :
    xferOnly tx s = .ok (transferred tx (Config.rxDraw s.draws) s) := by
  simp [xferOnly, xfer_of_selected tx h]

theorem xferOnly_of_unselected {s : State} (tx : Word16) (h : s.sel = none) :
    xferOnly tx s = .error .xferWithoutSelect := by
  simp [xferOnly, xfer_of_unselected tx h]

/-- A transfer answers exactly while a chip is selected, with the next draw. -/
theorem xfer_eq_ok {tx rx : Word16} {s t : State} :
    xfer tx s = .ok (rx, t) ↔
      s.sel ≠ none ∧ rx = Config.rxDraw s.draws ∧ t = transferred tx (Config.rxDraw s.draws) s := by
  cases h : s.sel with
  | none => simp [xfer, h]
  | some j => simp [xfer, h, eq_comm]

theorem xferOnly_eq_ok {tx : Word16} {s t : State} :
    xferOnly tx s = .ok t ↔ s.sel ≠ none ∧ t = transferred tx (Config.rxDraw s.draws) s := by
  cases h : s.sel with
  | none => simp [xferOnly, xfer, h]
  | some j => simp [xferOnly, xfer, h, eq_comm]

/-! ### Chip select -/

theorem select_of_idle {s : State} {j : Nat} (hj : j < s.cfg.numChips) (h : s.sel = none) :
    select j s = .ok (openWindow j s) := by
  simp [select, hj, h]

/-- `select` answers exactly for a chip that exists while none is selected, with its window open. -/
theorem select_eq_ok {s t : State} {j : Nat} :
    select j s = .ok t ↔ j < s.cfg.numChips ∧ s.sel = none ∧ t = openWindow j s := by
  by_cases hj : j < s.cfg.numChips
  · cases h : s.sel with
    | none => simp [select, hj, h, eq_comm]
    | some k => simp [select, hj, h]
  · simp [select, hj]

theorem deselect_of_selected {s : State} {j : Nat} (h : s.sel = some j) : deselect s = .ok (closeWindow j s) := by
  simp [deselect, h]

/-- `deselect` answers exactly while a chip is selected, with its window closed. -/
theorem deselect_eq_ok {s t : State} : deselect s = .ok t ↔ ∃ j, s.sel = some j ∧ t = closeWindow j s := by
  cases h : s.sel with
  | none => simp [deselect, h]
  | some j => simp [deselect, h, eq_comm]

theorem strobe_of_idle {s : State} (h : s.sel = none) : strobe s = .ok (emitAll strobeEvents s) := by
  simp [strobe, h]

/-- The strobe answers exactly while no chip is selected, with its four events emitted. -/
theorem strobe_eq_ok {s t : State} : strobe s = .ok t ↔ s.sel = none ∧ t = emitAll strobeEvents s := by
  cases h : s.sel with
  | none => simp [strobe, h, eq_comm]
  | some j => simp [strobe, h]

/-! ### Shadow cache -/

theorem cacheVoltage_of_lt {s : State} {ch : Nat} (w : Word16) (h : ch < s.vcache.length) :
    cacheVoltage ch w s = .ok { s with vcache := s.vcache.set ch (clampVoltage w) } := by
  simp [cacheVoltage, h]

/-- `cacheVoltage` answers exactly for an index inside the array, with that entry clamped and stored. -/
theorem cacheVoltage_eq_ok {s t : State} {ch : Nat} {w : Word16} :
    cacheVoltage ch w s = .ok t ↔
      ch < s.vcache.length ∧ t = { s with vcache := s.vcache.set ch (clampVoltage w) } := by
  by_cases h : ch < s.vcache.length <;> simp [cacheVoltage, h, eq_comm]

theorem readVoltage_eq_ok {s : State} {ch : Nat} {v : Volt12} :
    readVoltage ch s = .ok v ↔ s.vcache[ch]? = some v := by
  cases h : s.vcache[ch]? <;> simp [readVoltage, h]

theorem cacheControl_of_lt {s : State} {j : Nat} (w : Word16) (h : j < s.ccache.length) :
    cacheControl j w s = .ok { s with ccache := s.ccache.set j w } := by
  simp [cacheControl, h]

/-- `cacheControl` answers exactly for an index inside the array, with that entry overwritten. -/
theorem cacheControl_eq_ok {s t : State} {j : Nat} {w : Word16} :
    cacheControl j w s = .ok t ↔ j < s.ccache.length ∧ t = { s with ccache := s.ccache.set j w } := by
  by_cases h : j < s.ccache.length <;> simp [cacheControl, h, eq_comm]

theorem readControl_eq_ok {s : State} {j : Nat} {w : Word16} :
    readControl j s = .ok w ↔ s.ccache[j]? = some w := by
  cases h : s.ccache[j]? <;> simp [readControl, h]

/-- `readControlBit` answers exactly for a chip and a sub-channel that exist, with that bit. -/
theorem readControlBit_eq_ok {s : State} {j sub : Nat} {b : Bool} :
    readControlBit j sub s = .ok b ↔ sub < 4 ∧ ∃ w, s.ccache[j]? = some w ∧ w.getLsbD (sub + 2) = b := by
  by_cases hs : sub < 4
  · cases h : s.ccache[j]? <;> simp [readControlBit, hs, h]
  · simp [readControlBit, hs]

/-! ### Address translator -/

theorem translateAddress_dac {c : Config} {a : Word16} (h : a.toNat < c.dacSpan) : translateAddress c a = .dac (decompose c a) := by
  simp [translateAddress, h]

theorem translateAddress_eq_dac {c : Config} {a : Word16} {t : DacTarget} :
    translateAddress c a = .dac t ↔ a.toNat < c.dacSpan ∧ t = decompose c a := by
  unfold translateAddress
  split
  · simp_all [eq_comm]
  · split
    · split <;> simp_all
    · simp_all

theorem translateAddress_temp {c : Config} {a : Word16} {n : Nat} (hn : c.tempSpan = some n) (h : c.dacSpan ≤ a.toNat)
    (h' : a.toNat < c.dacSpan + n) : translateAddress c a = .temp (a.toNat - c.dacSpan) := by
  simp [translateAddress, hn, h', Nat.not_lt.2 h]

theorem translateAddress_outOfRange {c : Config} {a : Word16} (h : c.dacSpan + c.tempSpan.getD 0 ≤ a.toNat) :
    translateAddress c a = .outOfRange := by
  cases hn : c.tempSpan with
  | none =>
    simp only [hn, Option.getD_none, Nat.add_zero] at h
    simp [translateAddress, hn, h]
  | some n =>
    simp only [hn, Option.getD_some] at h
    simp [translateAddress, hn, if_neg (show ¬ a.toNat < c.dacSpan by omega), h]

/-- An address of the DAC domain, of the temperature domain or of neither (40_address_translator.md R101). -/
theorem translateAddress_cases (c : Config) (a : Word16) :
    (a.toNat < c.dacSpan ∧ translateAddress c a = .dac (decompose c a)) ∨
      (∃ off, translateAddress c a = .temp off) ∨ translateAddress c a = .outOfRange := by
  unfold translateAddress
  split
  · exact .inl ⟨‹_›, rfl⟩
  · split
    · split
      · exact .inr (.inl ⟨_, rfl⟩)
      · exact .inr (.inr rfl)
    · exact .inr (.inr rfl)

theorem chipSelOf_lt {c : Config} {a : Word16} (h : a.toNat < c.dacSpan) : chipSelOf a < c.numChips := by
  simp only [chipSelOf, Config.dacSpan] at *
  omega

theorem subOf_lt (a : Word16) : subOf a < 4 := Nat.mod_lt _ (by omega)

/-- An address is its chip index and its sub-channel (40_address_translator.md R108). -/
theorem eq_of_chipSel_sub {a b : Word16} (h : chipSelOf a = chipSelOf b) (h' : subOf a = subOf b) : a = b := by
  apply BitVec.eq_of_toNat_eq
  simp only [chipSelOf, subOf] at *
  omega

end Sys2Proof.Machine
end

