-- ==== Sys2Proof/Laws/Engine.lean ====
section
/-!
SUPPORT. What the sequencer's operations do, in one equation each, and what the events of a window do to the lines.
-/

namespace Sys2Proof.Machine

/-! ### The line levels of a window -/

theorem csLine_lt {c : Config} {n : Nat} {m : List Nat} (hv : c.valid = true) (hc : c.cs = .direct n m) {j : Nat}
    (hj : j < c.numChips) : csLine m j < n := by
  simp only [Config.valid, Config.csOk, hc, Bool.and_eq_true, beq_iff_eq, List.all_eq_true, decide_eq_true_eq] at hv
  obtain ⟨⟨_, ⟨⟨_, hl⟩, _⟩, hall⟩, _⟩ := hv
  have hm : j < m.length := by omega
  rw [csLine, List.getD_eq_getElem _ _ hm]
  exact hall _ (List.getElem_mem hm)

/-- Different chips have different lines: `CS_MAP` is injective (00_scope.md R8). -/
theorem csLine_injective {c : Config} {n : Nat} {m : List Nat} (hv : c.valid = true) (hc : c.cs = .direct n m)
    {j k : Nat} (hj : j < c.numChips) (hk : k < c.numChips) (h : csLine m j = csLine m k) : j = k := by
  simp only [Config.valid, Config.csOk, hc, Bool.and_eq_true, beq_iff_eq, decide_eq_true_eq] at hv
  obtain ⟨⟨_, ⟨⟨_, hl⟩, hn⟩, _⟩, _⟩ := hv
  have hjm : j < m.length := by omega
  have hkm : k < m.length := by omega
  rw [csLine, csLine, List.getD_eq_getElem _ _ hjm, List.getD_eq_getElem _ _ hkm] at h
  exact (List.Nodup.getElem_inj_iff hn).1 h

theorem numChips_le_decoded {c : Config} {n : Nat} (hv : c.valid = true) (hc : c.cs = .decoded n) :
    c.numChips ≤ 2 ^ n := by
  simp only [Config.valid, Config.csOk, hc, Bool.and_eq_true, decide_eq_true_eq] at hv
  exact hv.1.2

/-- Selecting chip `j` from idle lines leaves the lines of `j`'s window. -/
theorem driveAll_selectEvents {c : Config} {j d : Nat} (hv : c.valid = true) (hj : j < c.numChips) :
    driveAll (Lines.selecting c none d) (selectEvents c j) =
      Lines.selecting c (some j) (decAAfterSelect c j d) := by
  cases hc : c.cs with
  | direct n m => simp [Lines.selecting, selectEvents, hc, drive]
  | decoded n =>
    have hlt : j < 2 ^ n := lt_of_lt_of_le hj (numChips_le_decoded hv hc)
    simp [Lines.selecting, selectEvents, decAAfterSelect, hc, drive, Nat.mod_eq_of_lt hlt]

/-- Deselecting leaves idle lines; `DEC_A` keeps its value (41_chip_select.md R128). -/
theorem driveAll_deselectEvents (c : Config) (j d : Nat) :
    driveAll (Lines.selecting c (some j) d) (deselectEvents c j) = Lines.selecting c none d := by
  cases hc : c.cs with
  | direct n m =>
    have : (List.replicate n true).set (csLine m j) true = List.replicate n true := by
      apply List.ext_getElem <;> simp
    simp [Lines.selecting, deselectEvents, hc, drive, this]
  | decoded n => simp [Lines.selecting, deselectEvents, hc, drive]

/-- The strobe pulse ends with `LDAC_N` back at 1. -/
theorem driveAll_strobeEvents (c : Config) (sel : Option Nat) (d : Nat) :
    driveAll (Lines.selecting c sel d) strobeEvents = Lines.selecting c sel d := by
  cases hc : c.cs <;> simp [Lines.selecting, strobeEvents, hc, drive]

theorem drive_xfer (tx rx : Word16) (l : Lines) : drive (.xfer tx rx) l = l := rfl

theorem windowOpen_none (c : Config) (d : Nat) : windowOpen c (Lines.selecting c none d) = false := by
  cases hc : c.cs <;> simp [windowOpen, Lines.selecting, hc]

theorem windowOpen_some {c : Config} {j d : Nat} (hv : c.valid = true) (hj : j < c.numChips) :
    windowOpen c (Lines.selecting c (some j) d) = true := by
  cases hc : c.cs with
  | direct n m =>
    have hl := csLine_lt hv hc hj
    simp only [windowOpen, Lines.selecting, hc, List.any_eq_true]
    exact ⟨false, List.mem_iff_getElem.2 ⟨csLine m j, by simpa using hl, by simp⟩, rfl⟩
  | decoded n => simp [windowOpen, Lines.selecting, hc]

/-- The logical chip enable at the line levels of a selection (41_chip_select.md R131). -/
theorem chipEnabled_selecting {c : Config} (hv : c.valid = true) {sel : Option Nat} {d k : Nat}
    (hs : ∀ j, sel = some j → j < c.numChips) (hd : decAOk c sel d) (hk : k < c.numChips) :
    chipEnabled c (Lines.selecting c sel d) k = decide (sel = some k) := by
  cases hc : c.cs with
  | direct n m =>
    have hl := csLine_lt hv hc hk
    cases sel with
    | none => simp [chipEnabled, Lines.selecting, hc, hl, List.getD]
    | some j =>
      have hinj := csLine_injective hv hc (hs j rfl) hk
      by_cases h : j = k
      · simp [chipEnabled, Lines.selecting, hc, List.getD, hl, h]
      · have hne : csLine m j ≠ csLine m k := fun e => h (hinj e)
        simp [chipEnabled, Lines.selecting, hc, List.getD, hl, h, hne]
  | decoded n =>
    simp only [decAOk, hc] at hd
    cases sel with
    | none => simp [chipEnabled, Lines.selecting, hc]
    | some j =>
      rw [hd.2 j rfl]
      by_cases h : j = k <;> simp [chipEnabled, Lines.selecting, hc, h]

/-- `DEC_A` stays in its range over a select (41_chip_select.md R127). -/
theorem decAOk_afterSelect {c : Config} (hv : c.valid = true) {sel : Option Nat} {j d : Nat} (hj : j < c.numChips)
    (hd : decAOk c none d) (hsel : sel = none ∨ sel = some j) : decAOk c sel (decAAfterSelect c j d) := by
  cases hc : c.cs with
  | direct n m => simpa [decAOk, decAAfterSelect, hc] using hd
  | decoded n =>
    have hlt := lt_of_lt_of_le hj (numChips_le_decoded hv hc)
    rcases hsel with h | h <;> subst h <;> simpa [decAOk, decAAfterSelect, hc] using hlt

/-- A whole window, with transfers `xs` inside and perhaps a strobe after it, leaves the idle lines; only `DEC_A` may
have moved. -/
theorem driveAll_window {c : Config} (hv : c.valid = true) {j d : Nat} (hj : j < c.numChips) {xs fs : List Event}
    (hx : ∀ l, driveAll l xs = l) (hf : fs = [] ∨ fs = strobeEvents) :
    driveAll (Lines.selecting c none d) (selectEvents c j ++ xs ++ deselectEvents c j ++ fs) =
      Lines.selecting c none (decAAfterSelect c j d) := by
  rw [driveAll_append, driveAll_append, driveAll_append, driveAll_selectEvents hv hj, hx, driveAll_deselectEvents]
  rcases hf with h | h <;> subst h
  · rfl
  · exact driveAll_strobeEvents _ _ _

/-- Idle lines whose `DEC_A` moved are those lines with `DEC_A` set. -/
theorem selecting_none_set {c : Config} {j d : Nat} (hd : decAOk c none d) :
    Lines.selecting c none (decAAfterSelect c j d) =
      { Lines.selecting c none d with decA := decAAfterSelect c j d } := by
  cases hc : c.cs with
  | direct n m =>
    have h0 : d = 0 := by simpa [decAOk, hc] using hd
    simp [Lines.selecting, hc, decAAfterSelect, h0]
  | decoded n => simp [Lines.selecting, hc, decAAfterSelect]

theorem driveAll_powerTransfers (c : Config) (w : Word16) (n : Nat) (l : Lines) :
    driveAll l (powerTransfers c w n) = l := by
  unfold powerTransfers
  split <;> rfl

theorem selecting_ldacN (c : Config) (sel : Option Nat) (d : Nat) : (Lines.selecting c sel d).ldacN = true := by
  cases hc : c.cs <;> simp [Lines.selecting, hc]

/-! ### The operations in one equation -/

/-- `updateVoltage` with its preconditions: the entry clamped, the events of R172, one draw. -/
theorem updateVoltage_eq {s : State} {a : Word16} (v : Word16) (hs : s.sel = none)
    (ha : a.toNat < s.vcache.length) (hj : chipSelOf a < s.cfg.numChips) :
    updateVoltage a v s = .ok { s with
      vcache := s.vcache.set a.toNat (clampVoltage v)
      trace := s.trace ++ updateTrace s.cfg a v (Config.rxDraw s.draws)
      lines := driveAll s.lines (updateTrace s.cfg a v (Config.rxDraw s.draws))
      sclk := sclkIdle s.cfg
      mosi := Config.mosiIdle (s.draws + 1)
      draws := s.draws + 1 } := by
  simp [updateVoltage, cacheVoltage, ha, select, hj, hs, xferOnly, xfer, deselect, strobe, bind, Except.bind, updateTrace,
    openWindow, closeWindow, transferred, emit, emitAll, drive_xfer]

/-- `readVoltageApprox` with its preconditions: the events of R172, one draw, no shadow touched. -/
theorem readVoltageApprox_eq {s : State} {a : Word16} (hs : s.sel = none) (hj : chipSelOf a < s.cfg.numChips) :
    readVoltageApprox a s = .ok (readback (Config.rxDraw s.draws), { s with
      trace := s.trace ++ readTrace s.cfg a (Config.rxDraw s.draws)
      lines := driveAll s.lines (readTrace s.cfg a (Config.rxDraw s.draws))
      sclk := sclkIdle s.cfg
      mosi := Config.mosiIdle (s.draws + 1)
      draws := s.draws + 1 }) := by
  simp [readVoltageApprox, select, hj, hs, xfer, deselect, bind, Except.bind, pure, Except.pure, readTrace, openWindow,
    closeWindow, transferred, emit, emitAll, drive_xfer]

/-- `setPower` with its preconditions: one bit changed, the events of R172, one draw per transfer. -/
theorem setPower_eq {s : State} {a w : Word16} (on : Bool) (hs : s.sel = none) (hj : chipSelOf a < s.cfg.numChips)
    (hw : s.ccache[chipSelOf a]? = some w) :
    setPower a on s = .ok { s with
      ccache := s.ccache.set (chipSelOf a) (withPower w (subOf a) on)
      trace := s.trace ++ powerTrace s.cfg a (withPower w (subOf a) on) s.draws
      lines := driveAll s.lines (powerTrace s.cfg a (withPower w (subOf a) on) s.draws)
      sclk := sclkIdle s.cfg
      mosi := Config.mosiIdle (s.draws + if s.cfg.nullWordAfterCtrl then 2 else 1)
      draws := s.draws + if s.cfg.nullWordAfterCtrl then 2 else 1 } := by
  obtain ⟨hlt, _⟩ := List.getElem?_eq_some_iff.1 hw
  have hr := readControl_eq_ok.2 hw
  cases hn : s.cfg.nullWordAfterCtrl <;>
    simp [setPower, hr, cacheControl, hlt, select, hj, hs, xferOnly, xfer, sendNullAfterCtrl, hn, deselect,
      bind, Except.bind, powerTrace, powerTransfers, openWindow, closeWindow, transferred, emit, emitAll, drive_xfer]

/-- `updateVoltage` answers only where its preconditions hold; `updateVoltage_eq` then says with what. -/
theorem updateVoltage_ok {s t : State} {a v : Word16} (h : updateVoltage a v s = .ok t) :
    s.sel = none ∧ a.toNat < s.vcache.length ∧ chipSelOf a < s.cfg.numChips := by
  by_cases ha : a.toNat < s.vcache.length
  · by_cases hj : chipSelOf a < s.cfg.numChips
    · cases hs : s.sel with
      | none => exact ⟨rfl, ha, hj⟩
      | some k => simp [updateVoltage, cacheVoltage, ha, select, hj, hs, bind, Except.bind] at h
    · simp [updateVoltage, cacheVoltage, ha, select, hj, bind, Except.bind] at h
  · simp [updateVoltage, cacheVoltage, ha, bind, Except.bind] at h

/-- `readVoltageApprox` answers only where its preconditions hold; `readVoltageApprox_eq` then says with what. -/
theorem readVoltageApprox_ok {s : State} {a : Word16} {r : Volt12 × State} (h : readVoltageApprox a s = .ok r) :
    s.sel = none ∧ chipSelOf a < s.cfg.numChips := by
  by_cases hj : chipSelOf a < s.cfg.numChips
  · cases hs : s.sel with
    | none => exact ⟨rfl, hj⟩
    | some k => simp [readVoltageApprox, select, hj, hs, bind, Except.bind] at h
  · simp [readVoltageApprox, select, hj, bind, Except.bind] at h

/-- `setPower` answers only where its preconditions hold; `setPower_eq` then says with what. -/
theorem setPower_ok {s t : State} {a : Word16} {on : Bool} (h : setPower a on s = .ok t) :
    s.sel = none ∧ chipSelOf a < s.cfg.numChips ∧ ∃ w, s.ccache[chipSelOf a]? = some w := by
  cases hw : s.ccache[chipSelOf a]? with
  | none => simp [setPower, readControl, hw, bind, Except.bind] at h
  | some w =>
    obtain ⟨hlt, _⟩ := List.getElem?_eq_some_iff.1 hw
    have hr := readControl_eq_ok.2 hw
    by_cases hj : chipSelOf a < s.cfg.numChips
    · cases hs : s.sel with
      | none => exact ⟨rfl, hj, w, rfl⟩
      | some k => simp [setPower, hr, cacheControl, hlt, select, hj, hs, bind, Except.bind] at h
    · simp [setPower, hr, cacheControl, hlt, select, hj, bind, Except.bind] at h

/-- `getPower` reads one bit of the owning chip's control word. -/
theorem getPower_eq {s : State} {a w : Word16} (hw : s.ccache[chipSelOf a]? = some w) :
    getPower a s = .ok (w.getLsbD (subOf a + 2)) := by
  simp [getPower, readControlBit, subOf_lt, hw]

end Sys2Proof.Machine
end

