-- ==== Sys2Proof/Laws/Words.lean ====
section
/-!
SUPPORT. The fields of the words the encoder writes, and the two ways a command word is written (the table's pattern and
the sequencer's formula) compared.
-/

namespace Sys2Proof.Machine

/-- A bit index of a 16-bit word is one of sixteen. -/
theorem bit16_cases {p : Nat → Prop} (h0 : p 0) (h1 : p 1) (h2 : p 2) (h3 : p 3) (h4 : p 4) (h5 : p 5) (h6 : p 6)
    (h7 : p 7) (h8 : p 8) (h9 : p 9) (h10 : p 10) (h11 : p 11) (h12 : p 12) (h13 : p 13) (h14 : p 14) (h15 : p 15) :
    ∀ i, i < 16 → p i := by
  intro i hi
  have : i = 0 ∨ i = 1 ∨ i = 2 ∨ i = 3 ∨ i = 4 ∨ i = 5 ∨ i = 6 ∨ i = 7 ∨ i = 8 ∨ i = 9 ∨ i = 10 ∨ i = 11 ∨ i = 12 ∨
      i = 13 ∨ i = 14 ∨ i = 15 := by omega
  rcases this with h | h | h | h | h | h | h | h | h | h | h | h | h | h | h | h <;> subst h <;> assumption

/-! ### Request words -/

@[simp] theorem reqOp_reqWord (op : BitVec 3) (a d : Word16) : reqOp (reqWord op a d) = op := by
  ext i hi
  have : i = 0 ∨ i = 1 ∨ i = 2 := by omega
  rcases this with h | h | h <;> subst h <;> simp [reqOp, reqWord]

@[simp] theorem reqAddr_reqWord (op : BitVec 3) (a d : Word16) : reqAddr (reqWord op a d) = a := by
  ext i hi
  simp [reqAddr, reqWord, hi, show 16 + i < 35 by omega, show 16 + i < 32 by omega]

@[simp] theorem reqData_reqWord (op : BitVec 3) (a d : Word16) : reqData (reqWord op a d) = d := by
  ext i hi
  simp [reqData, reqWord, hi, show i < 35 by omega, show i < 32 by omega]

theorem reqWord_of_fields (w : ReqWord) : reqWord (reqOp w) (reqAddr w) (reqData w) = w := by
  ext i hi
  by_cases h : i < 16
  · simp [reqWord, reqOp, reqAddr, reqData, h, BitVec.getLsbD_eq_getElem, hi, show i < 32 by omega]
  · by_cases h2 : i < 32
    · simp [reqWord, reqOp, reqAddr, reqData, h, BitVec.getLsbD_eq_getElem, hi, h2, show 16 ≤ i by omega,
        show i - 16 < 16 by omega]
    · simp [reqWord, reqOp, reqAddr, reqData, h, BitVec.getLsbD_eq_getElem, hi, h2, show 16 ≤ i by omega,
        show 32 ≤ i by omega, show ¬ i - 16 < 16 by omega, show i - 32 < 3 by omega]

/-! ### Command words -/

@[simp] theorem nibble_voltPattern (n : BitVec 4) (v : Volt12) : (voltPattern n v).extractLsb' 12 4 = n := by
  ext i hi
  simp [voltPattern, hi, show 12 + i < 16 by omega]

@[simp] theorem data_voltPattern (n : BitVec 4) (v : Volt12) : (voltPattern n v).extractLsb' 0 12 = v := by
  ext i hi
  simp [voltPattern, hi, show i < 16 by omega]

theorem voltPattern_of_fields (w : Word16) : voltPattern (w.extractLsb' 12 4) (w.extractLsb' 0 12) = w := by
  ext i hi
  by_cases h : i < 12
  · simp [voltPattern, h, BitVec.getLsbD_eq_getElem, hi]
  · simp [voltPattern, h, show 12 ≤ i by omega, BitVec.getLsbD_eq_getElem, hi, show i - 12 < 4 by omega]

/-- The formula of 30_encoding.md R76 and the table's bit pattern are the same word. -/
theorem voltWord_eq_pattern {sub : Nat} (h : sub < 4) (v : Volt12) :
    voltWord sub (v.zeroExtend 16) = voltPattern (BitVec.ofNat 4 (sub + 1)) v := by
  apply BitVec.eq_of_toNat_eq
  have hv := v.isLt
  have hs : sub = 0 ∨ sub = 1 ∨ sub = 2 ∨ sub = 3 := by omega
  rcases hs with h | h | h | h <;> subst h <;>
    simp [voltWord, voltPattern, Nat.or_comm, Nat.mod_eq_of_lt (show v.toNat < 65536 by omega),
      Nat.mod_eq_of_lt (show v.toNat < 4096 by omega)]

/-- The formula of 30_encoding.md R78 and the table's bit pattern are the same word. -/
theorem ctrlWord_eq_pattern (c : Word16) (p : BitVec 4) : ctrlWord c p = ctrlPattern c p := by
  apply BitVec.eq_of_getLsbD_eq
  apply bit16_cases <;> simp [ctrlPattern, ctrlWord]

@[simp] theorem fixedBits_ctrlPattern (c : Word16) (p : BitVec 4) :
    ctrlPattern c p &&& ctrlFixedMask = c &&& ctrlFixedMask := by
  apply BitVec.eq_of_getLsbD_eq
  apply bit16_cases <;> simp [ctrlPattern, ctrlFixedMask]

@[simp] theorem power_ctrlPattern (c : Word16) (p : BitVec 4) : (ctrlPattern c p).extractLsb' 2 4 = p := by
  ext i hi
  have : i = 0 ∨ i = 1 ∨ i = 2 ∨ i = 3 := by omega
  rcases this with h | h | h | h <;> subst h <;> simp [ctrlPattern]

theorem ctrlPattern_of_fields {c w : Word16} (h : w &&& ctrlFixedMask = c &&& ctrlFixedMask) :
    ctrlPattern c (w.extractLsb' 2 4) = w := by
  apply BitVec.eq_of_getLsbD_eq
  have hb : ∀ i, (w &&& ctrlFixedMask).getLsbD i = (c &&& ctrlFixedMask).getLsbD i := fun i => by rw [h]
  apply bit16_cases <;> simp [ctrlPattern]
  · simpa [ctrlFixedMask] using (hb 0).symm
  · simpa [ctrlFixedMask] using (hb 1).symm
  · simpa [ctrlFixedMask] using (hb 6).symm
  · simpa [ctrlFixedMask] using (hb 7).symm
  · simpa [ctrlFixedMask] using (hb 8).symm
  · simpa [ctrlFixedMask] using (hb 9).symm
  · simpa [ctrlFixedMask] using (hb 10).symm
  · simpa [ctrlFixedMask] using (hb 11).symm
  · simpa [ctrlFixedMask] using (hb 12).symm
  · simpa [ctrlFixedMask] using (hb 13).symm
  · simpa [ctrlFixedMask] using (hb 14).symm
  · simpa [ctrlFixedMask] using (hb 15).symm

/-! ### Control words -/

theorem coilOn_eq (d : Word16) : coilOn d = decide (d ≠ 0#16) := by
  by_cases h : d = 0#16 <;> simp [coilOn, h]

theorem getLsbD_powerMask {sub k : Nat} (h : sub < 4) : (powerMask sub).getLsbD k = decide (k = sub + 2) := by
  have hs : sub = 0 ∨ sub = 1 ∨ sub = 2 ∨ sub = 3 := by omega
  by_cases hk : k < 16
  · revert hk
    revert k
    rcases hs with h | h | h | h <;> subst h <;> (apply bit16_cases <;> decide)
  · rw [BitVec.getLsbD_of_ge _ _ (by omega)]
    symm
    exact decide_eq_false (by omega)

/-- `withPower` sets or clears the one bit `sub + 2` (43_control_engine.md R165). -/
theorem getLsbD_withPower {w : Word16} {sub k : Nat} {on : Bool} (h : sub < 4) :
    (withPower w sub on).getLsbD k = if k = sub + 2 then on else w.getLsbD k := by
  cases on
  · by_cases hk : k < 16
    · rw [withPower, if_neg (by simp), BitVec.getLsbD_and, BitVec.getLsbD_not, getLsbD_powerMask h]
      by_cases he : k = sub + 2 <;> simp [he, hk]
    · have hw : w.getLsbD k = false := BitVec.getLsbD_of_ge _ _ (by omega)
      rw [BitVec.getLsbD_of_ge _ _ (by omega : 16 ≤ k), hw]
      simp
  · by_cases he : k = sub + 2 <;> simp [withPower, getLsbD_powerMask h, he]

/-- Setting or clearing a power bit leaves the fixed bits of the control word (10_state.md R27). -/
theorem fixedBits_withPower {w : Word16} {sub : Nat} {on : Bool} (h : sub < 4) :
    withPower w sub on &&& ctrlFixedMask = w &&& ctrlFixedMask := by
  apply BitVec.eq_of_getLsbD_eq
  intro i hi
  rw [BitVec.getLsbD_and, BitVec.getLsbD_and, getLsbD_withPower h]
  by_cases he : i = sub + 2
  · have hs : sub = 0 ∨ sub = 1 ∨ sub = 2 ∨ sub = 3 := by omega
    rcases hs with h | h | h | h <;> subst h <;> subst he <;> simp [ctrlFixedMask]
  · simp [he]

end Sys2Proof.Machine
end

