-- ==== Sys2Proof/Laws/Exec.lean ====
section
/-!
SUPPORT. The meanings over the shared operations: the branches of the dispatch, the transfer that every SPI command
word is, the step, and what placing a request keeps.
-/

namespace Sys2Proof.Machine

/-- An SPI command word's meaning is the transfer of the very word the table encodes it as. -/
theorem exec_of_command {s : State} {i : Instr} {w : Word16} (h : encode s.cfg i = .spi w) :
    exec i s = outcome (xferOnly w s) := by
  cases i with
  | hrr => simp [encode] at h
  | hrw => simp [encode] at h
  | irr => simp [encode] at h
  | cr => simp [encode] at h
  | cw => simp [encode] at h
  | ill5 => simp [encode] at h
  | ill6 => simp [encode] at h
  | ill7 => simp [encode] at h
  | voltCh0 v =>
    simp only [encode, Code.spi.injEq] at h
    simp only [exec, execVoltCh0, voltWord_eq_pattern (show 0 < 4 by omega), ← h]
  | voltCh1 v =>
    simp only [encode, Code.spi.injEq] at h
    simp only [exec, execVoltCh1, voltWord_eq_pattern (show 1 < 4 by omega), ← h]
  | voltCh2 v =>
    simp only [encode, Code.spi.injEq] at h
    simp only [exec, execVoltCh2, voltWord_eq_pattern (show 2 < 4 by omega), ← h]
  | voltCh3 v =>
    simp only [encode, Code.spi.injEq] at h
    simp only [exec, execVoltCh3, voltWord_eq_pattern (show 3 < 4 by omega), ← h]
  | rdreqCh0 =>
    simp only [encode, Code.spi.injEq] at h
    rw [exec, execRdreqCh0, ← h]
    rfl
  | rdreqCh1 =>
    simp only [encode, Code.spi.injEq] at h
    rw [exec, execRdreqCh1, ← h]
    rfl
  | rdreqCh2 =>
    simp only [encode, Code.spi.injEq] at h
    rw [exec, execRdreqCh2, ← h]
    rfl
  | rdreqCh3 =>
    simp only [encode, Code.spi.injEq] at h
    rw [exec, execRdreqCh3, ← h]
    rfl
  | ctrl p =>
    simp only [encode, Code.spi.injEq] at h
    simp only [exec, execCtrl, ← h, ctrlWord_eq_pattern]
  | null =>
    simp only [encode, Code.spi.injEq] at h
    rw [exec, execNull, ← h]
    rfl

/-- HRW in the DAC domain is updateVoltage and an OK response. -/
theorem execHrw_dac {s t : State} {a d : Word16} (ha : a.toNat < s.cfg.dacSpan) (h : updateVoltage a d s = .ok t) :
    execHrw a d s = .next (respond .ok 0#16 t) := by
  simp [execHrw, translateAddress_dac ha, h, bind, Except.bind, pure, Except.pure]

/-- HRR in the DAC domain is readVoltage and an OK response. -/
theorem execHrr_dac {s : State} {a d : Word16} {v : Volt12} (ha : a.toNat < s.cfg.dacSpan)
    (h : readVoltage a.toNat s = .ok v) : execHrr a d s = .next (respond .ok (voltResult v) s) := by
  simp [execHrr, translateAddress_dac ha, h, bind, Except.bind, pure, Except.pure]

/-- IRR in the DAC domain is readVoltageApprox and an OK response. -/
theorem execIrr_dac {s t : State} {a d : Word16} {v : Volt12} (ha : a.toNat < s.cfg.dacSpan)
    (h : readVoltageApprox a s = .ok (v, t)) : execIrr a d s = .next (respond .ok (voltResult v) t) := by
  simp [execIrr, translateAddress_dac ha, h, bind, Except.bind, pure, Except.pure]

/-- CR in the DAC domain is getPower and an OK response. -/
theorem execCr_dac {s : State} {a d : Word16} {b : Bool} (ha : a.toNat < s.cfg.dacSpan) (h : getPower a s = .ok b) :
    execCr a d s = .next (respond .ok (coilResult b) s) := by
  simp [execCr, translateAddress_dac ha, h, bind, Except.bind, pure, Except.pure]

/-- CW in the DAC domain is setPower and an OK response. -/
theorem execCw_dac {s t : State} {a d : Word16} (ha : a.toNat < s.cfg.dacSpan) (h : setPower a (coilOn d) s = .ok t) :
    execCw a d s = .next (respond .ok 0#16 t) := by
  simp [execCw, translateAddress_dac ha, h, bind, Except.bind, pure, Except.pure]

/-- In the DAC domain HRW answers only where updateVoltage does. -/
theorem execHrw_dac_ok {s t : State} {a d : Word16} (ha : a.toNat < s.cfg.dacSpan) (h : execHrw a d s = .next t) :
    ∃ u, updateVoltage a d s = .ok u ∧ t = respond .ok 0#16 u := by
  cases hu : updateVoltage a d s with
  | error f => simp [execHrw, translateAddress_dac ha, hu, bind, Except.bind] at h
  | ok u =>
    rw [execHrw_dac ha hu] at h
    cases h
    exact ⟨u, rfl, rfl⟩

/-- In the DAC domain HRR answers only where readVoltage does. -/
theorem execHrr_dac_ok {s t : State} {a d : Word16} (ha : a.toNat < s.cfg.dacSpan) (h : execHrr a d s = .next t) :
    ∃ v, readVoltage a.toNat s = .ok v ∧ t = respond .ok (voltResult v) s := by
  cases hu : readVoltage a.toNat s with
  | error f => simp [execHrr, translateAddress_dac ha, hu, bind, Except.bind] at h
  | ok v =>
    rw [execHrr_dac ha hu] at h
    cases h
    exact ⟨v, rfl, rfl⟩

/-- In the DAC domain IRR answers only where readVoltageApprox does. -/
theorem execIrr_dac_ok {s t : State} {a d : Word16} (ha : a.toNat < s.cfg.dacSpan) (h : execIrr a d s = .next t) :
    ∃ v u, readVoltageApprox a s = .ok (v, u) ∧ t = respond .ok (voltResult v) u := by
  cases hu : readVoltageApprox a s with
  | error f => simp [execIrr, translateAddress_dac ha, hu, bind, Except.bind] at h
  | ok r =>
    rw [execIrr_dac (v := r.1) (t := r.2) ha hu] at h
    cases h
    exact ⟨r.1, r.2, rfl, rfl⟩

/-- In the DAC domain CR answers only where getPower does. -/
theorem execCr_dac_ok {s t : State} {a d : Word16} (ha : a.toNat < s.cfg.dacSpan) (h : execCr a d s = .next t) :
    ∃ b, getPower a s = .ok b ∧ t = respond .ok (coilResult b) s := by
  cases hu : getPower a s with
  | error f => simp [execCr, translateAddress_dac ha, hu, bind, Except.bind] at h
  | ok b =>
    rw [execCr_dac ha hu] at h
    cases h
    exact ⟨b, rfl, rfl⟩

/-- In the DAC domain CW answers only where setPower does. -/
theorem execCw_dac_ok {s t : State} {a d : Word16} (ha : a.toNat < s.cfg.dacSpan) (h : execCw a d s = .next t) :
    ∃ u, setPower a (coilOn d) s = .ok u ∧ t = respond .ok 0#16 u := by
  cases hu : setPower a (coilOn d) s with
  | error f => simp [execCw, translateAddress_dac ha, hu, bind, Except.bind] at h
  | ok u =>
    rw [execCw_dac ha hu] at h
    cases h
    exact ⟨u, rfl, rfl⟩

/-- No instruction's meaning refuses. -/
theorem exec_ne_refused (i : Instr) (s : State) (q : Refusal) : exec i s ≠ .refused q := by
  cases i with
  | hrr a d => rcases translateAddress_cases s.cfg a with ⟨_, h⟩ | ⟨_, h⟩ | h <;> simp [exec, execHrr, h, outcome_ne_refused]
  | hrw a d => rcases translateAddress_cases s.cfg a with ⟨_, h⟩ | ⟨_, h⟩ | h <;> simp [exec, execHrw, h, outcome_ne_refused]
  | irr a d => rcases translateAddress_cases s.cfg a with ⟨_, h⟩ | ⟨_, h⟩ | h <;> simp [exec, execIrr, h, outcome_ne_refused]
  | cr a d => rcases translateAddress_cases s.cfg a with ⟨_, h⟩ | ⟨_, h⟩ | h <;> simp [exec, execCr, h, outcome_ne_refused]
  | cw a d => rcases translateAddress_cases s.cfg a with ⟨_, h⟩ | ⟨_, h⟩ | h <;> simp [exec, execCw, h, outcome_ne_refused]
  | ill5 => simp [exec, execIll5]
  | ill6 => simp [exec, execIll6]
  | ill7 => simp [exec, execIll7]
  | _ => rw [exec_of_command rfl]; exact outcome_ne_refused _ _

/-! ### Step -/

theorem step_of_run {s t : State} {i : Instr} (h : fetch s = .run i t) : step s = exec i t := by
  simp [step, h]

theorem step_of_done {s : State} {o : Host.Outcome State Fault Refusal} (h : fetch s = .done o) : step s = o := by
  simp [step, h]

/-- What the next step is, once for every state. -/
theorem step_eq (s : State) :
    step s =
      if s.cfg.valid then
        match s.phase with
        | .idle =>
          match s.inbox with
          | [] => .next s
          | .rst :: rest => .next (applyReset { s with inbox := rest })
          | .request w :: rest => exec (decodeReq w) { s with inbox := rest, phase := .busy }
        | .busy =>
          match s.seq with
          | [] => .next { s with phase := .idle }
          | .send w :: rest =>
            match decodeSpi s.cfg w with
            | .ok i => exec i { s with seq := rest }
            | .error _ => .refused .unknownCommandWord
          | .deselect :: rest => outcome (deselect { s with seq := rest })
          | .strobe :: rest => outcome (strobe { s with seq := rest })
      else .refused .badConfiguration := by
  cases hv : s.cfg.valid with
  | false => simp [step, fetch, hv]
  | true =>
    cases hp : s.phase with
    | idle =>
      cases hi : s.inbox with
      | nil => simp [step, fetch, hv, hp, fetchInput, hi]
      | cons x rest => cases x <;> simp [step, fetch, hv, hp, fetchInput, hi]
    | busy =>
      cases hs : s.seq with
      | nil => simp [step, fetch, hv, hp, fetchSeq, hs]
      | cons o rest =>
        cases o with
        | send w => cases hd : decodeSpi s.cfg w <;> simp [step, fetch, hv, hp, fetchSeq, hs, hd]
        | deselect => simp [step, fetch, hv, hp, fetchSeq, hs]
        | strobe => simp [step, fetch, hv, hp, fetchSeq, hs]

/-! ### Placing a word -/

theorem decAOk_none {c : Config} {sel : Option Nat} {d : Nat} (h : decAOk c sel d) : decAOk c none d := by
  unfold decAOk at h ⊢
  split <;> simp_all

theorem selecting_decA {c : Config} {sel : Option Nat} {d : Nat} (h : decAOk c sel d) :
    (Lines.selecting c sel d).decA = d := by
  unfold decAOk at h
  unfold Lines.selecting
  split <;> simp_all

/-- Deselecting in a state of the invariant leaves the idle lines, and `DEC_A` as it was (41_chip_select.md R128). -/
theorem closeWindow_lines_of_inv {s : State} {j : Nat} (h : Inv s) (hs : s.sel = some j) :
    (closeWindow j s).lines = Lines.selecting s.cfg none s.lines.decA := by
  have hl := h.linesAgree
  rw [hs] at hl
  rw [closeWindow_lines, hl, driveAll_deselectEvents, ← hl]

/-- A request can be placed in every state of the invariant, and what results is a state between requests (log 21). -/
theorem placeRequest_inv {s : State} (w : ReqWord) (h : Inv s) :
    Inv (placeRequest w s) ∧ (placeRequest w s).phase = .idle ∧ (placeRequest w s).sel = none ∧
      (placeRequest w s).inbox = .request w :: s.inbox := by
  have hd := decAOk_none h.decAInRange
  cases hs : s.sel with
  | none =>
    have hl := h.linesAgree
    rw [hs] at hl
    refine ⟨?_, by simp [placeRequest, hs]⟩
    simp only [placeRequest, hs]
    exact ⟨h.cfgValid, h.vcacheLength, h.ccacheLength, h.ccacheFixed, hl, hd, h.sclkAtIdle, nofun, fun _ => ⟨rfl, rfl⟩, rfl⟩
  | some j =>
    have hl := closeWindow_lines_of_inv h hs
    have hdec : (closeWindow j s).lines.decA = s.lines.decA := by rw [hl, selecting_decA hd]
    refine ⟨?_, by simp [placeRequest, hs]⟩
    simp only [placeRequest, hs]
    exact ⟨h.cfgValid, h.vcacheLength, h.ccacheLength, h.ccacheFixed, hl.trans (by rw [hdec]; rfl), hdec ▸ hd,
      h.sclkAtIdle, nofun, fun _ => ⟨rfl, rfl⟩, rfl⟩

end Sys2Proof.Machine
end

