-- ==== Sys2Proof/Laws/PerInstr.lean ====
section
/-!
SUPPORT. One statement about each instruction as syntax: its encoded word has the width and the fixed bits its row of
spec/opcode_table.json gives.
-/

namespace Sys2Proof.Laws.TableRow

/-- The word is a request whose op field is `op` (30_encoding.md R71). -/
def isRequest (op : BitVec 3) : Code → Prop
  | .req w => reqOp w = op
  | .spi _ => False

/-- The word is an SPI command word `w` with `w &&& mask = fixed`. -/
def isCommand (mask fixed : Word16) : Code → Prop
  | .req _ => False
  | .spi w => w &&& mask = fixed

/-- The row of `i`, from the table's mask and match. -/
def Statement (i : Instr) : Prop :=
  ∀ c : Config, match i with
    | .hrr _ _ => isRequest 0 (encode c i)
    | .hrw _ _ => isRequest 1 (encode c i)
    | .irr _ _ => isRequest 2 (encode c i)
    | .cr _ _ => isRequest 3 (encode c i)
    | .cw _ _ => isRequest 4 (encode c i)
    | .ill5 _ _ => isRequest 5 (encode c i)
    | .ill6 _ _ => isRequest 6 (encode c i)
    | .ill7 _ _ => isRequest 7 (encode c i)
    | .voltCh0 _ => isCommand 0xF000#16 0x1000#16 (encode c i)
    | .voltCh1 _ => isCommand 0xF000#16 0x2000#16 (encode c i)
    | .voltCh2 _ => isCommand 0xF000#16 0x3000#16 (encode c i)
    | .voltCh3 _ => isCommand 0xF000#16 0x4000#16 (encode c i)
    | .rdreqCh0 => isCommand 0xFFFF#16 0x9000#16 (encode c i)
    | .rdreqCh1 => isCommand 0xFFFF#16 0xA000#16 (encode c i)
    | .rdreqCh2 => isCommand 0xFFFF#16 0xB000#16 (encode c i)
    | .rdreqCh3 => isCommand 0xFFFF#16 0xC000#16 (encode c i)
    | .ctrl _ => isCommand 0xFFC3#16 (c.ctrlInit &&& 0xFFC3#16) (encode c i)
    | .null => isCommand 0xFFFF#16 0x0000#16 (encode c i)

theorem hrr (a d : Word16) : Statement (.hrr a d) := fun _ => Machine.reqOp_reqWord 0 a d
theorem hrw (a d : Word16) : Statement (.hrw a d) := fun _ => Machine.reqOp_reqWord 1 a d
theorem irr (a d : Word16) : Statement (.irr a d) := fun _ => Machine.reqOp_reqWord 2 a d
theorem cr (a d : Word16) : Statement (.cr a d) := fun _ => Machine.reqOp_reqWord 3 a d
theorem cw (a d : Word16) : Statement (.cw a d) := fun _ => Machine.reqOp_reqWord 4 a d
theorem ill5 (a d : Word16) : Statement (.ill5 a d) := fun _ => Machine.reqOp_reqWord 5 a d
theorem ill6 (a d : Word16) : Statement (.ill6 a d) := fun _ => Machine.reqOp_reqWord 6 a d
theorem ill7 (a d : Word16) : Statement (.ill7 a d) := fun _ => Machine.reqOp_reqWord 7 a d

theorem voltCh0 (v : Volt12) : Statement (.voltCh0 v) := by
  intro c
  apply BitVec.eq_of_getLsbD_eq
  apply Machine.bit16_cases <;> simp [voltPattern]

theorem voltCh1 (v : Volt12) : Statement (.voltCh1 v) := by
  intro c
  apply BitVec.eq_of_getLsbD_eq
  apply Machine.bit16_cases <;> simp [voltPattern]

theorem voltCh2 (v : Volt12) : Statement (.voltCh2 v) := by
  intro c
  apply BitVec.eq_of_getLsbD_eq
  apply Machine.bit16_cases <;> simp [voltPattern]

theorem voltCh3 (v : Volt12) : Statement (.voltCh3 v) := by
  intro c
  apply BitVec.eq_of_getLsbD_eq
  apply Machine.bit16_cases <;> simp [voltPattern]

theorem rdreqCh0 : Statement .rdreqCh0 := fun _ => rfl
theorem rdreqCh1 : Statement .rdreqCh1 := fun _ => rfl
theorem rdreqCh2 : Statement .rdreqCh2 := fun _ => rfl
theorem rdreqCh3 : Statement .rdreqCh3 := fun _ => rfl
theorem ctrl (p : BitVec 4) : Statement (.ctrl p) := fun c => Machine.fixedBits_ctrlPattern c.ctrlInit p
theorem null : Statement .null := fun _ => rfl

end Sys2Proof.Laws.TableRow
end

