-- ==== Sys2Proof/Laws/WellFormed.lean ====
section
/-!
SUPPORT. What the check of a configuration says, once, as the constraints of 00_scope.md R8.
-/

namespace Sys2Proof

theorem Config.chipsOk_iff {c : Config} :
    c.chipsOk = true ↔ c.numChips % 2 = 0 ∧ 2 ≤ c.numChips ∧ 4 * c.numChips ≤ 2 ^ 16 := by
  simp [Config.chipsOk, and_assoc]

theorem Config.topologyOk_iff {c : Config} :
    c.topologyOk = true ↔ ∀ n, c.topology = .sipm n → 1 ≤ n ∧ n ∣ c.numChips / 2 := by
  cases h : c.topology <;> simp [Config.topologyOk, Config.numGroups, h, Nat.dvd_iff_mod_eq_zero]

theorem Config.csOk_iff {c : Config} :
    c.csOk = true ↔ (∀ n csMap, c.cs = .direct n csMap →
      c.numChips ≤ n ∧ csMap.length = c.numChips ∧ csMap.Nodup ∧ ∀ k ∈ csMap, k < n) ∧
      ∀ n, c.cs = .decoded n → c.numChips ≤ 2 ^ n := by
  cases h : c.cs with
  | direct n m =>
    simp only [Config.csOk, h, Bool.and_eq_true, decide_eq_true_eq, beq_iff_eq, List.all_eq_true, and_assoc]
    exact ⟨fun hc => ⟨fun _ _ e => by cases e; exact hc, nofun⟩, fun hc => hc.1 n m rfl⟩
  | decoded n =>
    simp only [Config.csOk, h, decide_eq_true_eq]
    exact ⟨fun hc => ⟨nofun, fun _ e => by cases e; exact hc⟩, fun hc => hc.2 n rfl⟩

theorem Config.tempOk_iff {c : Config} :
    c.tempOk = true ↔ ∀ n, c.tempSpan = some n → 1 ≤ n ∧ c.dacSpan + n ≤ 2 ^ 16 := by
  cases h : c.tempSpan <;> simp [Config.tempOk, h]

theorem Config.valid_iff {c : Config} :
    c.valid = true ↔ c.chipsOk = true ∧ c.topologyOk = true ∧ c.ctrlInitOk = true ∧ c.csOk = true ∧ c.tempOk = true := by
  simp [Config.valid, and_assoc]

end Sys2Proof
end

