-- ==== Sys2Proof/Tests/Slice0.lean ====
section
/-!
SUPPORT. The model's own tests. Expected values are those of 95_test_vectors.md (W, T1, V1 to V3, C1, S1, E1, P1 to P4),
of the worked examples in the rules, or written out by hand from the encodings of 30_encoding.md. The last part shows for
every obligation with hypotheses a state and operands that meet them, at the boundary values of each clause.
-/

open Sys2Proof Sys2Proof.Machine

namespace Sys2Proof.Tests

/-- C1's control pattern, with the null word. -/
def cfgF : Config := { Config.cfgA with ctrlInit := 0xA5C3#16, nullWordAfterCtrl := true }

/-- P4's configuration: DECODED with two lines, a temperature domain of 8. -/
def cfgT : Config := { Config.cfgA with cs := .decoded 2, tempSpan := some 8 }

/-- T1's SIPM configuration. -/
def cfgS : Config :=
  { Config.cfgA with numChips := 8, topology := .sipm 2, cs := .direct 8 [0, 1, 2, 3, 4, 5, 6, 7] }

/-- S1's configuration with the lines in reverse order. -/
def cfgR : Config := { Config.cfgA with cs := .direct 4 [3, 2, 1, 0] }

def nextState : Host.Outcome State Fault Refusal → Option State
  | .next s => some s
  | _ => none

/-- A field of the state a step leads to. -/
def after {α : Type} (o : Host.Outcome State Fault Refusal) (f : State → α) : Option α := (nextState o).map f

/-- The last response of the state a step leads to, as a response word. -/
def answer (o : Host.Outcome State Fault Refusal) : Option RspWord :=
  (nextState o).bind fun s => s.responses.getLast?.map responseWord

/-! ### Well-formedness: each check refuses an ill-formed term -/

theorem test_wf_examples : Config.cfgA.valid = true ∧ cfgF.valid = true ∧ cfgT.valid = true ∧ cfgS.valid = true ∧
    cfgR.valid = true := by decide

theorem test_wf_odd_chips : { Config.cfgA with numChips := 3, cs := .direct 4 [0, 1, 2] }.chipsOk = false ∧
    { Config.cfgA with numChips := 3, cs := .direct 4 [0, 1, 2] }.valid = false := by decide

theorem test_wf_no_chips : { Config.cfgA with numChips := 0 }.chipsOk = false := by decide

theorem test_wf_boards : { cfgS with topology := .sipm 3 }.topologyOk = false ∧
    { cfgS with topology := .sipm 0 }.topologyOk = false ∧ { cfgS with topology := .sipm 3 }.valid = false := by decide

theorem test_wf_ctrlInit : { Config.cfgA with ctrlInit := 0x0004#16 }.ctrlInitOk = false ∧
    { Config.cfgA with ctrlInit := 0x0020#16 }.valid = false := by decide

theorem test_wf_csMap : { Config.cfgA with cs := .direct 4 [0, 1, 1, 3] }.csOk = false ∧
    { Config.cfgA with cs := .direct 4 [0, 1, 2, 4] }.csOk = false ∧
    { Config.cfgA with cs := .direct 4 [0, 1, 2] }.csOk = false ∧
    { Config.cfgA with cs := .decoded 1 }.csOk = false ∧ { Config.cfgA with cs := .decoded 1 }.valid = false := by decide

theorem test_wf_tempSpan : { cfgT with tempSpan := some 0 }.tempOk = false ∧
    { cfgT with tempSpan := some 65521 }.tempOk = false ∧ { cfgT with tempSpan := some 65520 }.tempOk = true ∧
    { cfgT with tempSpan := some 0 }.valid = false := by decide

theorem test_wf_ctrl : (Instr.ctrl 0#4).wf Config.cfgA = false ∧ (Instr.ctrl 1#4).wf Config.cfgA = true ∧
    (Instr.ctrl 0#4).wf cfgF = true := by decide

/-! ### Decoding: words written out from 30_encoding.md R70 to R79 -/

theorem test_decode_requests : decodeReq 0x000050000#35 = .hrr 5#16 0#16 ∧
    decodeReq 0x100050064#35 = .hrw 5#16 100#16 ∧ decodeReq 0x200060000#35 = .irr 6#16 0#16 ∧
    decodeReq 0x3FFFF8001#35 = .cr 0xFFFF#16 0x8001#16 ∧ decodeReq 0x40007FF00#35 = .cw 7#16 0xFF00#16 ∧
    decodeReq 0x500030000#35 = .ill5 3#16 0#16 ∧ decodeReq 0x600001234#35 = .ill6 0#16 0x1234#16 ∧
    decodeReq 0x700100000#35 = .ill7 16#16 0#16 := by decide

theorem test_decode_volt : decodeSpi Config.cfgA 0b0001000000000000#16 = .ok (.voltCh0 0#12) ∧
    decodeSpi Config.cfgA 0b0010000001100100#16 = .ok (.voltCh1 100#12) ∧
    decodeSpi Config.cfgA 0b0011100000000000#16 = .ok (.voltCh2 2048#12) ∧
    decodeSpi Config.cfgA 0b0100111111111111#16 = .ok (.voltCh3 4095#12) := ⟨rfl, rfl, rfl, rfl⟩

theorem test_decode_rdreq : decodeSpi Config.cfgA 0b1001000000000000#16 = .ok .rdreqCh0 ∧
    decodeSpi Config.cfgA 0b1010000000000000#16 = .ok .rdreqCh1 ∧
    decodeSpi Config.cfgA 0b1011000000000000#16 = .ok .rdreqCh2 ∧
    decodeSpi Config.cfgA 0b1100000000000000#16 = .ok .rdreqCh3 := ⟨rfl, rfl, rfl, rfl⟩

/-- `pwr` is `{PWR3, PWR2, PWR1, PWR0}`: 0xA5D3 has bit 4 set, PWR2. -/
theorem test_decode_ctrl_null : decodeSpi cfgF 0b1010010111010011#16 = .ok (.ctrl 0b0100#4) ∧
    decodeSpi cfgF 0xA5C3#16 = .ok (.ctrl 0#4) ∧ decodeSpi Config.cfgA 0x0010#16 = .ok (.ctrl 4#4) ∧
    decodeSpi Config.cfgA 0x0000#16 = .ok .null := ⟨rfl, rfl, rfl, rfl⟩

theorem test_decode_refuses : decodeSpi Config.cfgA 0x5000#16 = .error .unknownCommandWord ∧
    decodeSpi Config.cfgA 0x9001#16 = .error .unknownCommandWord ∧
    decodeSpi cfgF 0x25D3#16 = .ok (.voltCh1 0x5D3#12) ∧
    decodeSpi cfgF 0xA5D2#16 = .error .unknownCommandWord := ⟨rfl, rfl, rfl, rfl⟩

theorem test_decodeTableWord : decodeTableWord 40 0x100050064 = some (.hrw 5#16 100#16) ∧
    decodeTableWord 16 0xB000 = some .rdreqCh2 ∧ decodeTableWord 16 0x0004 = some (.ctrl 1#4) ∧
    decodeTableWord 40 0x800000000 = none := by decide

/-! ### Words and units -/

/-- V1 of 95_test_vectors.md. -/
theorem test_volt_words : voltWord 0 0#16 = 0x1000#16 ∧ voltWord 1 100#16 = 0x2064#16 ∧
    voltWord 2 2048#16 = 0x3800#16 ∧ voltWord 3 4095#16 = 0x4FFF#16 ∧ voltWord 0 4096#16 = 0x1000#16 ∧
    voltWord 1 5000#16 = 0x2388#16 ∧ voltWord 2 0x1234#16 = 0x3234#16 ∧ voltWord 3 0xFFFF#16 = 0x4FFF#16 := by decide

/-- V1's cache column. -/
theorem test_clamp : clampVoltage 0#16 = 0#12 ∧ clampVoltage 4095#16 = 4095#12 ∧ clampVoltage 4096#16 = 4095#12 ∧
    clampVoltage 0xFFFF#16 = 4095#12 := by decide

/-- V3. -/
theorem test_readback : readback 0x0001#16 = 0x002#12 ∧ readback 0x0123#16 = 0x246#12 ∧ readback 0x07FF#16 = 0xFFE#12 ∧
    readback 0x0800#16 = 0x000#12 ∧ readback 0x8123#16 = 0x246#12 ∧ readback 0xFFFF#16 = 0xFFE#12 := by decide

/-- C1, steps 1, 2, 5 and 6. -/
theorem test_control_words : withPower 0xA5C3#16 0 true = 0xA5C7#16 ∧ withPower 0xA5C7#16 3 true = 0xA5E7#16 ∧
    withPower 0xA5FF#16 1 false = 0xA5F7#16 ∧ withPower 0xA5F7#16 1 false = 0xA5F7#16 := by decide

/-- Bit 15 first: 0x8001 begins and ends with a 1. -/
theorem test_wire_order : (wireBits 0x8002#16).take 2 = [true, false] ∧ (wireBits 0x8002#16).drop 14 = [true, false] := by
  decide

/-- T1, BOARD. -/
theorem test_translate : translateAddress Config.cfgA 15#16 = .dac ⟨3, 3, 3, 1, 1, 1, none⟩ ∧
    translateAddress Config.cfgA 8#16 = .dac ⟨2, 0, 2, 0, 1, 1, none⟩ ∧
    translateAddress Config.cfgA 16#16 = .outOfRange ∧ translateAddress cfgT 16#16 = .temp 0 ∧
    translateAddress cfgT 23#16 = .temp 7 ∧ translateAddress cfgT 24#16 = .outOfRange ∧
    translateAddress cfgT 0xFFFF#16 = .outOfRange ∧
    translateAddress { cfgT with tempSpan := some 65520 } 0xFFFF#16 = .temp 65519 := by decide

/-- T1, SIPM. -/
theorem test_translate_sipm : translateAddress cfgS 9#16 = .dac ⟨2, 1, 2, 0, 1, 1, some 0⟩ ∧
    translateAddress cfgS 20#16 = .dac ⟨5, 0, 5, 1, 2, 0, some 1⟩ ∧
    translateAddress cfgS 31#16 = .dac ⟨7, 3, 7, 1, 3, 1, some 1⟩ := by decide

/-- S1. -/
theorem test_select_events : selectEvents Config.cfgA 1 = [.csLow 1, .wait .tCsSetup] ∧
    deselectEvents Config.cfgA 1 = [.wait .tCsHold, .csHigh 1] ∧ selectEvents cfgR 1 = [.csLow 2, .wait .tCsSetup] ∧
    selectEvents cfgT 2 = [.decAddr 2, .wait .tDecSetup, .enLow] ∧
    deselectEvents cfgT 2 = [.wait .tDecHold, .enHigh] ∧
    select 4 (State.resetWith Config.cfgA) = .error .selectOutOfRange := by decide

/-! ### Requests, one each -/

/-- P1: `HRW 5, 100` in CFG-A, its trace. -/
theorem test_hrw_trace : after (exec (.hrw 5#16 100#16) State.reset) State.trace =
    some [.csLow 1, .wait .tCsSetup, .xfer 0x2064#16 (Config.rxDraw 0), .wait .tCsHold, .csHigh 1, .wait .tStrobeGap,
      .ldacLow, .wait .tLdacLow, .ldacHigh] := rfl

/-- V1's row 5000: the shadow saturates while the wire carries the raw low bits. -/
theorem test_hrw_saturates : after (exec (.hrw 5#16 5000#16) State.reset) (fun s => s.vcache[5]?) = some (some 4095#12) ∧
    answer (exec (.hrw 5#16 5000#16) State.reset) = some 0x00000#18 := by decide

theorem test_hrr_reads_shadow :
    answer (exec (.hrr 5#16 0xFFFF#16) { State.reset with vcache := State.reset.vcache.set 5 4095#12 }) =
      some 0x00FFF#18 := by decide

/-- P4, request 2: the decoder is addressed before it is enabled. -/
theorem test_irr_trace : after (exec (.irr 14#16 0#16) (State.resetWith cfgT)) State.trace =
    some [.decAddr 3, .wait .tDecSetup, .enLow, .xfer 0xB000#16 (Config.rxDraw 0), .wait .tDecHold, .enHigh] := rfl

theorem test_irr_answer : after (exec (.irr 14#16 0#16) (State.resetWith cfgT)) State.responses =
    some [⟨.ok, voltResult (readback (Config.rxDraw 0))⟩] := rfl

/-- C1, step 2, with the null word in the same window. -/
theorem test_cw_trace :
    after (exec (.cw 3#16 0xFF00#16) { State.resetWith cfgF with ccache := [0xA5C7#16, 0xA5C3#16, 0xA5C3#16, 0xA5C3#16] })
      State.trace =
    some [.csLow 0, .wait .tCsSetup, .xfer 0xA5E7#16 (Config.rxDraw 0), .xfer 0x0000#16 (Config.rxDraw 1), .wait .tCsHold,
      .csHigh 0] := rfl

theorem test_cw_clears_one_bit :
    after (exec (.cw 1#16 0#16) { State.resetWith cfgF with ccache := [0xA5FF#16, 0xA5C3#16, 0xA5C3#16, 0xA5C3#16] })
      State.ccache = some [0xA5F7#16, 0xA5C3#16, 0xA5C3#16, 0xA5C3#16] := by decide

/-- After `CW 6, 1`: `CR 6` answers 1, `CR 7` answers 0 (44_request_ops.md R205). -/
theorem test_cr_reads_bit :
    answer (exec (.cr 6#16 0#16) { State.reset with ccache := [0#16, 0x0010#16, 0#16, 0#16] }) = some 0x00001#18 ∧
    answer (exec (.cr 7#16 0#16) { State.reset with ccache := [0#16, 0x0010#16, 0#16, 0#16] }) = some 0x00000#18 := by
  decide

/-- E1: the op is checked before the address. -/
theorem test_ill : answer (exec (.ill5 3#16 0#16) State.reset) = some 0x10000#18 ∧
    answer (exec (.ill6 0#16 0x1234#16) State.reset) = some 0x10000#18 ∧
    answer (exec (.ill7 16#16 0#16) State.reset) = some 0x10000#18 := by decide

/-- E1 and P4: out of range, and a write in the temperature domain. -/
theorem test_illegal_address : answer (exec (.hrw 16#16 5#16) State.reset) = some 0x20000#18 ∧
    answer (exec (.hrr 24#16 0#16) (State.resetWith cfgT)) = some 0x20000#18 ∧
    answer (exec (.hrw 17#16 1#16) (State.resetWith cfgT)) = some 0x20000#18 ∧
    after (exec (.hrw 17#16 1#16) (State.resetWith cfgT)) State.trace = some [] := by decide

/-- P4, request 3. -/
theorem test_temperature : after (exec (.irr 16#16 0#16) (State.resetWith cfgT)) State.trace =
    some [.tempCall 2#3 0 (Config.tempStatus 0) (Config.tempData 0)] := rfl

/-! ### SPI command words, one each, and the steps around them -/

/-- Chip 3 selected in CFG-A. -/
def inWindow : State := { openWindow 3 State.reset with phase := .busy }

theorem test_voltCh0 : after (exec (.voltCh0 1#12) inWindow) (fun s => s.trace.getLast?) =
    some (some (.xfer 0x1001#16 (Config.rxDraw 0))) := rfl
theorem test_voltCh1 : after (exec (.voltCh1 100#12) inWindow) (fun s => s.trace.getLast?) =
    some (some (.xfer 0x2064#16 (Config.rxDraw 0))) := rfl
theorem test_voltCh2 : after (exec (.voltCh2 2048#12) inWindow) (fun s => s.trace.getLast?) =
    some (some (.xfer 0x3800#16 (Config.rxDraw 0))) := rfl
theorem test_voltCh3 : after (exec (.voltCh3 4095#12) inWindow) (fun s => s.trace.getLast?) =
    some (some (.xfer 0x4FFF#16 (Config.rxDraw 0))) := rfl
theorem test_rdreqCh0 : after (exec .rdreqCh0 inWindow) (fun s => s.trace.getLast?) =
    some (some (.xfer 0x9000#16 (Config.rxDraw 0))) := rfl
theorem test_rdreqCh1 : after (exec .rdreqCh1 inWindow) (fun s => s.trace.getLast?) =
    some (some (.xfer 0xA000#16 (Config.rxDraw 0))) := rfl
theorem test_rdreqCh2 : after (exec .rdreqCh2 inWindow) (fun s => s.trace.getLast?) =
    some (some (.xfer 0xB000#16 (Config.rxDraw 0))) := rfl
theorem test_rdreqCh3 : after (exec .rdreqCh3 inWindow) (fun s => s.trace.getLast?) =
    some (some (.xfer 0xC000#16 (Config.rxDraw 0))) := rfl
theorem test_ctrl : after (exec (.ctrl 0b1011#4) { inWindow with cfg := cfgF }) (fun s => s.trace.getLast?) =
    some (some (.xfer 0xA5EF#16 (Config.rxDraw 0))) := rfl
theorem test_null : after (exec .null inWindow) (fun s => s.trace.getLast?) =
    some (some (.xfer 0x0000#16 (Config.rxDraw 0))) := rfl

theorem test_fetch_request : after (step (State.reset.withFetchWord 40 0x100050064)) (fun s => s.vcache[5]?) =
    some (some 100#12) := by decide

theorem test_fetch_command : after (step (State.reset.withFetchWord 16 0x2064)) (fun s => s.trace) =
    some [.csLow 0, .wait .tCsSetup, .xfer 0x2064#16 (Config.rxDraw 0)] := rfl

/-- 43_control_engine.md R172: what follows a VOLT, an RDREQ and a CTRL word, without and with the null word of R166. -/
theorem test_seqAfter : seqAfter cfgF 0x2064#16 = [.deselect, .strobe] ∧ seqAfter cfgF 0xB000#16 = [.deselect] ∧
    seqAfter Config.cfgA 0x0010#16 = [.deselect] ∧ seqAfter cfgF 0xA5D3#16 = [.send 0x0000#16, .deselect] :=
  ⟨rfl, rfl, rfl, rfl⟩

/-- Log 21: placed in a window, a request finds the window closed, and a command word finds it open. -/
theorem test_place_in_window : after (step (inWindow.withFetchWord 40 0x100050064)) (fun s => (s.vcache[5]?, s.sel, s.phase)) =
    some (some 100#12, none, .idle) ∧
    (inWindow.withFetchWord 40 0x100050064).trace = [.csLow 3, .wait .tCsSetup, .wait .tCsHold, .csHigh 3] ∧
    (inWindow.withFetchWord 16 0x2064).sel = some 3 := by decide

/-- Both preconditions broken: the range is checked first (log 20). -/
theorem test_select_both_broken : nextState (outcome (select 4 inWindow)) = none ∧
    select 4 inWindow = .error .selectOutOfRange := ⟨rfl, rfl⟩

/-- From reset with nothing placed, a step changes nothing (log 7). -/
theorem test_reset_idles : after (step State.reset) id = some State.reset := rfl

/-! ### Witnesses: states and operands that meet the hypotheses of the statements -/

/-- DECODED, with a temperature domain. -/
def wIdle : State := State.resetWith cfgT

/-- DIRECT, with fixed control bits and the null word. -/
def wDirect : State := State.resetWith cfgF

/-- The last chip selected in the DECODED variant, with a voltage update under way. -/
def wBusy : State :=
  { openWindow 3 wIdle with phase := .busy, seq := [.send 0x4FFF#16, .deselect, .strobe] }

/-- A stream of the last channel's writes, a reset and an unused op. -/
def wStream : List Input := [.request 0x1000F1234#35, .request 0x4000F0001#35, .rst, .request 0x1000F0005#35,
  .request 0x4000E0001#35, .request 0x7FFFF0000#35]

theorem witness_inv_idle : Inv wIdle where
  cfgValid := by decide
  vcacheLength := by decide
  ccacheLength := by decide
  ccacheFixed := fun _ hw => by rw [List.eq_of_mem_replicate (n := 4) (a := 0x0000#16) hw]; rfl
  linesAgree := by decide
  decAInRange := show (0 : Nat) < 2 ^ 2 ∧ ∀ j, none = some j → 0 = j from ⟨by decide, nofun⟩
  sclkAtIdle := by decide
  selInRange := fun _ h => by cases h
  idleNothingPending := fun _ => ⟨rfl, rfl⟩
  seqRuns := by decide

theorem witness_inv_direct : Inv wDirect where
  cfgValid := by decide
  vcacheLength := by decide
  ccacheLength := by decide
  ccacheFixed := fun _ hw => by rw [List.eq_of_mem_replicate (n := 4) (a := 0xA5C3#16) hw]; rfl
  linesAgree := by decide
  decAInRange := rfl
  sclkAtIdle := by decide
  selInRange := fun _ h => by cases h
  idleNothingPending := fun _ => ⟨rfl, rfl⟩
  seqRuns := by decide

theorem witness_inv_busy : Inv wBusy where
  cfgValid := by decide
  vcacheLength := by decide
  ccacheLength := by decide
  ccacheFixed := fun _ hw => by rw [List.eq_of_mem_replicate (n := 4) (a := 0x0000#16) hw]; rfl
  linesAgree := by decide
  decAInRange := show (3 : Nat) < 2 ^ 2 ∧ ∀ j, some 3 = some j → 3 = j from ⟨by decide, fun _ h => Option.some.inj h⟩
  sclkAtIdle := by decide
  selInRange := fun _ h => by cases h; decide
  idleNothingPending := fun h => by cases h
  seqRuns := by decide

/-- The invariant does not look at the inputs to come. -/
theorem inv_withInbox {s : State} (h : Inv s) (ins : List Input) : Inv { s with inbox := ins } :=
  ⟨h.cfgValid, h.vcacheLength, h.ccacheLength, h.ccacheFixed, h.linesAgree, h.decAInRange, h.sclkAtIdle, h.selInRange,
    h.idleNothingPending, h.seqRuns⟩

theorem witness_DecodeOfEncodeIsSame : (Instr.ctrl 4#4).wf cfgF = true ∧ (Instr.ctrl 15#4).wf Config.cfgA = true ∧
    (Instr.voltCh3 4095#12).wf cfgF = true := by decide

theorem witness_EncodeOfDecodeIsSame : decode cfgF (.spi 0xA5FF#16) = .ok (.ctrl 15#4) ∧
    decode cfgF (.req 0x7FFFFFFFF#35) = .ok (.ill7 0xFFFF#16 0xFFFF#16) := ⟨rfl, rfl⟩

theorem witness_wordFields : (0 < 4 ∧ 3 < 4) ∧ (0 < 11 ∧ 10 < 11) ∧ (0 < 16 ∧ 15 < 16) := by decide

/-- TranslateClassifiesAddresses, each clause at both ends of its range. -/
theorem witness_TranslateClassifiesAddresses :
    ((0#16).toNat < cfgT.dacSpan ∧ (15#16).toNat < cfgT.dacSpan) ∧
    (cfgT.tempSpan = some 8 ∧ cfgT.dacSpan ≤ (16#16).toNat ∧ (16#16).toNat < cfgT.dacSpan + 8) ∧
    (cfgT.dacSpan ≤ (23#16).toNat ∧ (23#16).toNat < cfgT.dacSpan + 8) ∧
    (cfgT.dacSpan + 8 ≤ (24#16).toNat ∧ cfgT.dacSpan + 8 ≤ (0xFFFF#16).toNat) ∧
    (cfgF.tempSpan = none ∧ cfgF.dacSpan ≤ (16#16).toNat ∧ cfgF.dacSpan ≤ (0xFFFF#16).toNat) := by decide

theorem witness_DecompositionInRange : cfgS.valid = true ∧ (31#16).toNat < cfgS.dacSpan ∧ cfgS.topology = .sipm 2 ∧
    (0#16).toNat < cfgS.dacSpan := by decide

theorem witness_SelectEnablesExactlyThatChip :
    (Inv wIdle ∧ wIdle.sel = none ∧ 3 < wIdle.cfg.numChips) ∧
    (Inv wDirect ∧ wDirect.sel = none ∧ 0 < wDirect.cfg.numChips) ∧ wIdle.cfg.cs = .decoded 2 ∧
    wDirect.cfg.cs = .direct 4 [0, 1, 2, 3] :=
  ⟨⟨witness_inv_idle, rfl, by decide⟩, ⟨witness_inv_direct, rfl, by decide⟩, rfl, rfl⟩

theorem witness_OnlySelectedChipIsEnabled : Inv wBusy ∧ wBusy.sel = some 3 ∧ 3 < wBusy.cfg.numChips ∧
    0 < wBusy.cfg.numChips := ⟨witness_inv_busy, rfl, by decide, by decide⟩

theorem witness_BrokenPreconditionsFault : wIdle.cfg.numChips ≤ 4 ∧ (3 < wBusy.cfg.numChips ∧ wBusy.sel = some 3) ∧
    wIdle.sel = none := by decide

theorem witness_cache : (15 < wIdle.vcache.length ∧ wIdle.vcache[15]? = some 0#12) ∧
    (nextState (outcome (cacheVoltage 15 4096#16 wIdle))).isSome = true ∧
    (nextState (outcome (updateVoltage 15#16 4096#16 wIdle))).isSome = true ∧
    (nextState (outcome (setPower 15#16 true wDirect))).isSome = true ∧ 3 < wDirect.ccache.length ∧ 6 ≠ 3 + 2 ∧
    (3 < 4 ∧ wDirect.ccache[3]? = some 0xA5C3#16) ∧ wIdle.vcache.length ≤ 16 ∧ wIdle.ccache.length ≤ 4 ∧ 4 ≤ 4 := by
  decide

theorem witness_engine : wDirect.sel = none ∧ (15#16).toNat / 4 < wDirect.cfg.numChips ∧
    wDirect.ccache[(15#16).toNat / 4]? = some 0xA5C3#16 := by decide

/-- HrwWritesShadowAndUpdatesChip, HrrReturnsShadow, IrrReturnsAdvisoryReadback, CrReturnsPowerBit and
CwWritesPowerBitAndControlsChip, at the first and the last channel, in both variants. -/
theorem witness_dac_requests :
    (Inv wIdle ∧ wIdle.sel = none ∧ (15#16).toNat < wIdle.cfg.dacSpan ∧ (0#16).toNat < wIdle.cfg.dacSpan) ∧
    (Inv wDirect ∧ wDirect.sel = none ∧ (15#16).toNat < wDirect.cfg.dacSpan) :=
  ⟨⟨witness_inv_idle, rfl, by decide, by decide⟩, witness_inv_direct, rfl, by decide⟩

theorem witness_IllAnswersIllegalFunction : Instr.ill7 16#16 0#16 = .ill5 16#16 0#16 ∨
    Instr.ill7 16#16 0#16 = .ill6 16#16 0#16 ∨ Instr.ill7 16#16 0#16 = .ill7 16#16 0#16 := by decide

theorem witness_OutOfRangeAnswersIllegalAddress :
    wIdle.cfg.dacSpan + wIdle.cfg.tempSpan.getD 0 ≤ (24#16).toNat ∧
    wIdle.cfg.dacSpan + wIdle.cfg.tempSpan.getD 0 ≤ (0xFFFF#16).toNat ∧
    wDirect.cfg.dacSpan + wDirect.cfg.tempSpan.getD 0 ≤ (16#16).toNat ∧
    Instr.cw 16#16 1#16 = .cw 16#16 1#16 := by decide

/-- TemperatureWriteAnswersIllegalAddress and TemperatureReadForwards, at both ends of the domain. -/
theorem witness_temperature : wIdle.cfg.tempSpan = some 8 ∧
    (wIdle.cfg.dacSpan ≤ (16#16).toNat ∧ (16#16).toNat < wIdle.cfg.dacSpan + 8) ∧
    (wIdle.cfg.dacSpan ≤ (23#16).toNat ∧ (23#16).toNat < wIdle.cfg.dacSpan + 8) ∧
    (Instr.cr 23#16 0#16 = .cr 23#16 0#16 ∧ 3#3 = 3#3) := by decide

theorem witness_CommandWordTransfersItself : encode wBusy.cfg (.voltCh3 4095#12) = .spi 0x4FFF#16 ∧
    wBusy.sel = some 3 := by decide

theorem witness_CommandWordNeedsSelectedChip : encode wIdle.cfg .rdreqCh3 = .spi 0xC000#16 ∧ wIdle.sel = none := by decide

theorem witness_EveryWordSentIsOfAKnownKind : Inv wBusy ∧ ∃ t es, step wBusy = .next t ∧ t.trace = wBusy.trace ++ es ∧
    ∃ tx rx, Event.xfer tx rx ∈ es :=
  ⟨witness_inv_busy, _, [.xfer 0x4FFF#16 (Config.rxDraw 0)], rfl, rfl, _, _, List.mem_singleton.2 rfl⟩

theorem witness_ControlWordKeepsFixedBits : Inv wDirect ∧ wDirect.ccache[3]? = some 0xA5C3#16 ∧ 3 < 4 :=
  ⟨witness_inv_direct, by decide, by decide⟩

theorem witness_VoltageShadowAccess :
    (∃ t, exec (.hrw 15#16 7#16) wIdle = .next t ∧ t.vcache ≠ wIdle.vcache) ∧
    (∃ t, exec (.cr 15#16 0#16) wIdle = .next t) ∧ (List.replicate 16 1#12).length = wIdle.vcache.length ∧
    (15#16).toNat < wIdle.cfg.dacSpan ∧ ∃ t, exec (.hrr 15#16 0#16) wIdle = .next t :=
  ⟨⟨_, rfl, by decide⟩, ⟨_, rfl⟩, by decide, by decide, _, rfl⟩

theorem witness_ControlShadowAccess :
    (∃ t, exec (.cw 15#16 7#16) wDirect = .next t ∧ t.ccache ≠ wDirect.ccache) ∧
    (∃ t, exec (.hrw 15#16 0#16) wDirect = .next t) ∧ (List.replicate 4 1#16).length = wDirect.ccache.length ∧
    (15#16).toNat < wDirect.cfg.dacSpan ∧ ∃ t, exec (.cr 15#16 0#16) wDirect = .next t :=
  ⟨⟨_, rfl, by decide⟩, ⟨_, rfl⟩, by decide, by decide, _, rfl⟩

theorem witness_CoilWriteChangesOneCoil : Inv wDirect ∧ (15#16).toNat < wDirect.cfg.dacSpan ∧
    (14#16).toNat < wDirect.cfg.dacSpan ∧ ∃ t, exec (.cw 15#16 1#16) wDirect = .next t :=
  ⟨witness_inv_direct, by decide, by decide, _, rfl⟩

theorem witness_EveryRequestAnswersOnce : (∃ t, exec (decodeReq 0x1000F1234#35) wIdle = .next t) ∧
    ∃ t, exec (decodeReq 0x7FFFFFFFF#35) wIdle = .next t := ⟨⟨_, rfl⟩, _, rfl⟩

theorem witness_StepRunsNextRequest : wIdle.cfg.valid = true ∧ wIdle.phase = .idle ∧
    { wIdle with inbox := wStream }.inbox = .request 0x1000F1234#35 :: wStream.tail := by decide

theorem witness_StepRunsNextCommandWord : wBusy.cfg.valid = true ∧ wBusy.phase = .busy ∧
    wBusy.seq = .send 0x4FFF#16 :: [.deselect, .strobe] ∧ decodeSpi wBusy.cfg 0x4FFF#16 = .ok (.voltCh3 4095#12) :=
  ⟨by decide, rfl, rfl, rfl⟩

/-- A broken configuration, and the two sums just at and just above 2^16. -/
theorem witness_BadConfigurationIsRefused : { wIdle with cfg := { cfgT with cs := .decoded 1 } }.cfg.valid = false ∧
    { cfgT with numChips := 16384, cs := .decoded 14, tempSpan := none }.valid = true ∧
    { cfgT with numChips := 16386, cs := .decoded 15, tempSpan := none }.valid = false ∧
    { cfgT with tempSpan := some 65520 }.valid = true ∧ { cfgT with tempSpan := some 65521 }.valid = false := by
  decide

theorem witness_NothingHappensBetweenRequests : wIdle.cfg.valid = true ∧ wIdle.phase = .idle ∧ wIdle.inbox = [] := by decide

theorem witness_NoStepWritesConfiguration : ∃ t, step wBusy = .next t := ⟨_, rfl⟩

theorem witness_reset : cfgF.valid = true ∧ (15 < cfgF.dacSpan ∧ 3 < cfgF.numChips ∧ (15#16).toNat < cfgF.dacSpan) ∧
    wDirect.cfg.valid = true ∧ wDirect.phase = .idle ∧ { wDirect with inbox := [.rst] }.inbox = .rst :: [] := by decide

theorem witness_EveryStep : (Inv wBusy ∧ ∃ t, step wBusy = .next t) ∧
    (Inv { wIdle with inbox := wStream } ∧ ∃ t, step { wIdle with inbox := wStream } = .next t) ∧
    (Inv { wDirect with inbox := [.rst] } ∧ ∃ t, step { wDirect with inbox := [.rst] } = .next t) :=
  ⟨⟨witness_inv_busy, _, rfl⟩, ⟨inv_withInbox witness_inv_idle _, _, rfl⟩, inv_withInbox witness_inv_direct _, _, rfl⟩

theorem witness_Run : Inv { wIdle with inbox := wStream } ∧ wIdle.phase = .idle ∧ (15#16).toNat < wIdle.cfg.dacSpan ∧
    (∃ t, Host.Core.run Sys2Proof.core 6 { wIdle with inbox := wStream } = .next t) ∧
    getPower 15#16 { wIdle with inbox := wStream } = .ok false :=
  ⟨inv_withInbox witness_inv_idle _, rfl, by decide, ⟨_, rfl⟩, rfl⟩

/-- What the stream leaves, by hand: channel 15 has 5, coil 15 is off again, coil 14 is on. -/
theorem test_stream_reading : shadowVoltageAfter 15#16 wStream 0#12 = 5#12 ∧ shadowPowerAfter 15#16 wStream false = false ∧
    shadowPowerAfter 14#16 wStream false = true ∧ requestCount wStream = 5 := by decide

/-- The DIRECT machine beside the DECODED one of `wIdle`. -/
theorem witness_VariantsAreLogicallyEqual : Inv wIdle ∧ Inv (State.resetWith { cfgT with cs := .direct 4 [3, 2, 1, 0] }) ∧
    wIdle.sel = none ∧
    State.resetWith { cfgT with cs := .direct 4 [3, 2, 1, 0] } =
      { wIdle with
        cfg := { wIdle.cfg with cs := .direct 4 [3, 2, 1, 0] }
        lines := Lines.idle { cfgT with cs := .direct 4 [3, 2, 1, 0] }
        trace := [] } := by
  refine ⟨witness_inv_idle, ?_, rfl, rfl⟩
  exact
    { cfgValid := by decide
      vcacheLength := by decide
      ccacheLength := by decide
      ccacheFixed := fun _ hw => by rw [List.eq_of_mem_replicate (n := 4) (a := 0x0000#16) hw]; rfl
      linesAgree := by decide
      decAInRange := rfl
      sclkAtIdle := by decide
      selInRange := fun _ h => by cases h
      idleNothingPending := fun _ => ⟨rfl, rfl⟩
      seqRuns := by decide }

/-- AtomicUpdateIsItsBusOperations, AtomicPowerSetIsItsBusOperations and AtomicReadbackIsItsBusOperations. -/
theorem witness_atomic : (Inv wIdle ∧ wIdle.phase = .idle ∧ (15#16).toNat < wIdle.cfg.dacSpan) ∧
    Inv wDirect ∧ wDirect.phase = .idle ∧ (15#16).toNat < wDirect.cfg.dacSpan ∧
    wDirect.ccache[chipSelOf 15#16]? = some 0xA5C3#16 :=
  ⟨⟨witness_inv_idle, rfl, by decide⟩, witness_inv_direct, rfl, by decide, by decide⟩

end Sys2Proof.Tests
end

/-! ## Who accesses VCACHE (10_state.md R22)

Noninterference comes first, operation by operation: an operation that answers does so alike with another VCACHE, and
the answered states differ in VCACHE only. That no instruction but HRW writes VCACHE follows from it, with the state's
own VCACHE as the replacement. -/

namespace Sys2Proof.Machine

/-- A voltage answered as a read result keeps its value (20_memory.md R57). -/
@[simp] theorem voltResult_toNat (v : Volt12) : (voltResult v).toNat = v.toNat :=
  BitVec.toNat_setWidth_of_le (by decide)

/-! ### The sequencer's operations with VCACHE replaced -/

theorem xferOnly_replaceVcache {s t : State} {tx : Word16} (v : List Volt12) (h : xferOnly tx s = .ok t) :
    xferOnly tx { s with vcache := v } = .ok { t with vcache := v } := by
  obtain ⟨hsel, rfl⟩ := xferOnly_eq_ok.1 h
  exact xferOnly_eq_ok.2 ⟨hsel, rfl⟩

theorem readVoltageApprox_replaceVcache {s t : State} {a : Word16} {r : Volt12} (v : List Volt12)
    (h : readVoltageApprox a s = .ok (r, t)) :
    readVoltageApprox a { s with vcache := v } = .ok (r, { t with vcache := v }) := by
  obtain ⟨hsel, hchip⟩ := readVoltageApprox_ok h
  rw [readVoltageApprox_eq hsel hchip] at h
  cases h
  exact readVoltageApprox_eq (s := { s with vcache := v }) hsel hchip

theorem setPower_replaceVcache {s t : State} {a : Word16} {on : Bool} (v : List Volt12) (h : setPower a on s = .ok t) :
    setPower a on { s with vcache := v } = .ok { t with vcache := v } := by
  obtain ⟨hsel, hchip, w, hw⟩ := setPower_ok h
  rw [setPower_eq on hsel hchip hw] at h
  cases h
  exact setPower_eq (s := { s with vcache := v }) on hsel hchip hw

theorem getPower_replaceVcache (s : State) (a : Word16) (v : List Volt12) :
    getPower a { s with vcache := v } = getPower a s := rfl

/-- `updateVoltage` stores into the VCACHE it is given; of the old one it needs the length only. -/
theorem updateVoltage_replaceVcache {s t : State} {a d : Word16} {v : List Volt12} (hv : v.length = s.vcache.length)
    (h : updateVoltage a d s = .ok t) :
    updateVoltage a d { s with vcache := v } = .ok { t with vcache := v.set a.toNat (clampVoltage d) } := by
  obtain ⟨hsel, ha, hchip⟩ := updateVoltage_ok h
  rw [updateVoltage_eq d hsel ha hchip] at h
  cases h
  exact updateVoltage_eq (s := { s with vcache := v }) d hsel (hv ▸ ha) hchip

/-- `updateVoltage` writes VCACHE through `cacheVoltage` only (42_register_cache.md R140). -/
theorem updateVoltage_vcache {s t : State} {a d : Word16} (h : updateVoltage a d s = .ok t) :
    ∃ u, cacheVoltage a.toNat d s = .ok u ∧ t.vcache = u.vcache := by
  obtain ⟨hsel, ha, hchip⟩ := updateVoltage_ok h
  rw [updateVoltage_eq d hsel ha hchip] at h
  cases h
  exact ⟨_, cacheVoltage_of_lt d ha, rfl⟩

/-! ### The instructions with VCACHE replaced -/

/-- The address that a request of the five defined ops translates; the other instructions translate none. -/
def translatedAddress : Instr → Option Word16
  | .hrr a _ | .hrw a _ | .irr a _ | .cr a _ | .cw a _ => some a
  | _ => none

/-- Outside the DAC domain the configuration alone decides what a request does: an address error, or a read handed to the
temperature unit (44_request_ops.md R207, R208). -/
theorem exec_outside_dac {i : Instr} {a : Word16} {c : Config} (hi : translatedAddress i = some a)
    (ha : ¬ a.toNat < c.dacSpan) :
    ∃ f : State → State, (f = raiseIllegalDataAddress ∨ ∃ op off, f = forwardTemp op off) ∧
      ∀ s, s.cfg = c → exec i s = .next (f s) := by
  rcases translateAddress_cases c a with ⟨hlt, _⟩ | ⟨off, h⟩ | h
  · exact absurd hlt ha
  · cases i with cases hi
    | hrr => exact ⟨_, .inr ⟨0#3, off, rfl⟩, by rintro s rfl; simp only [exec, execHrr, h]⟩
    | hrw => exact ⟨_, .inl rfl, by rintro s rfl; simp only [exec, execHrw, h]⟩
    | irr => exact ⟨_, .inr ⟨2#3, off, rfl⟩, by rintro s rfl; simp only [exec, execIrr, h]⟩
    | cr => exact ⟨_, .inr ⟨3#3, off, rfl⟩, by rintro s rfl; simp only [exec, execCr, h]⟩
    | cw => exact ⟨_, .inl rfl, by rintro s rfl; simp only [exec, execCw, h]⟩
  · refine ⟨_, .inl rfl, ?_⟩
    rintro s rfl
    cases i with cases hi
    | hrr => simp only [exec, execHrr, h]
    | hrw => simp only [exec, execHrw, h]
    | irr => simp only [exec, execIrr, h]
    | cr => simp only [exec, execCr, h]
    | cw => simp only [exec, execCw, h]

theorem exec_outside_dac_replaceVcache {i : Instr} {a : Word16} {s t : State} (v : List Volt12)
    (hi : translatedAddress i = some a) (ha : ¬ a.toNat < s.cfg.dacSpan) (h : exec i s = .next t) :
    exec i { s with vcache := v } = .next { t with vcache := v } := by
  obtain ⟨f, hf, hx⟩ := exec_outside_dac hi ha
  cases (hx s rfl).symm.trans h
  rw [hx { s with vcache := v } rfl]
  rcases hf with rfl | ⟨op, off, rfl⟩ <;> rfl

/-- An instruction other than HRR and HRW in the DAC domain neither reads nor writes VCACHE. -/
theorem exec_replaceVcache {i : Instr} {s t : State} (v : List Volt12)
    (hr : ∀ a d, i = .hrr a d → ¬ a.toNat < s.cfg.dacSpan) (hw : ∀ a d, i = .hrw a d → ¬ a.toNat < s.cfg.dacSpan)
    (h : exec i s = .next t) : exec i { s with vcache := v } = .next { t with vcache := v } := by
  cases i with
  | hrr a d => exact exec_outside_dac_replaceVcache v rfl (hr a d rfl) h
  | hrw a d => exact exec_outside_dac_replaceVcache v rfl (hw a d rfl) h
  | irr a d =>
    by_cases ha : a.toNat < s.cfg.dacSpan
    · obtain ⟨r, u, hu, rfl⟩ := execIrr_dac_ok (d := d) ha h
      exact execIrr_dac (d := d) (s := { s with vcache := v }) ha (readVoltageApprox_replaceVcache v hu)
    · exact exec_outside_dac_replaceVcache v rfl ha h
  | cr a d =>
    by_cases ha : a.toNat < s.cfg.dacSpan
    · obtain ⟨b, hb, rfl⟩ := execCr_dac_ok (d := d) ha h
      exact execCr_dac (d := d) (s := { s with vcache := v }) ha ((getPower_replaceVcache s a v).trans hb)
    · exact exec_outside_dac_replaceVcache v rfl ha h
  | cw a d =>
    by_cases ha : a.toNat < s.cfg.dacSpan
    · obtain ⟨u, hu, rfl⟩ := execCw_dac_ok ha h
      exact execCw_dac (s := { s with vcache := v }) ha (setPower_replaceVcache v hu)
    · exact exec_outside_dac_replaceVcache v rfl ha h
  | ill5 | ill6 | ill7 => cases h; rfl
  | _ =>
    rw [exec_of_command rfl] at h ⊢
    exact outcome_eq_next.2 (xferOnly_replaceVcache v (outcome_eq_next.1 h))

/-- HRW in the DAC domain does not read VCACHE: with another one of the same length it answers alike. -/
theorem exec_hrw_dac_replaceVcache {s t : State} {a d : Word16} {v : List Volt12} (hv : v.length = s.vcache.length)
    (ha : a.toNat < s.cfg.dacSpan) (h : exec (.hrw a d) s = .next t) :
    exec (.hrw a d) { s with vcache := v } = .next { t with vcache := v.set a.toNat (clampVoltage d) } := by
  obtain ⟨u, hu, rfl⟩ := execHrw_dac_ok ha h
  exact execHrw_dac (s := { s with vcache := v }) ha (updateVoltage_replaceVcache hv hu)

/-! ### Who writes VCACHE -/

/-- An instruction other than HRW in the DAC domain leaves VCACHE as it is. -/
theorem exec_vcache_of_not_hrw {i : Instr} {s t : State} (hw : ∀ a d, i = .hrw a d → ¬ a.toNat < s.cfg.dacSpan)
    (h : exec i s = .next t) : t.vcache = s.vcache := by
  by_cases hr : ∃ a d, i = .hrr a d ∧ a.toNat < s.cfg.dacSpan
  · obtain ⟨a, d, rfl, ha⟩ := hr
    obtain ⟨_, _, rfl⟩ := execHrr_dac_ok (d := d) ha h
    rfl
  · have hsame : exec i s = .next { t with vcache := s.vcache } :=
      exec_replaceVcache s.vcache (fun a d hi ha => hr ⟨a, d, hi, ha⟩) hw h
    have ht : t = { t with vcache := s.vcache } := Host.Outcome.next.inj (h.symm.trans hsame)
    rw [ht]

/-- Settles O37: writers and readers of VCACHE by noninterference, the two accesses through `cacheVoltage` and
`readVoltage`. -/
theorem voltageShadowAccess : Obligations.VoltageShadowAccess := by
  refine ⟨fun s t i h hne => ?writes, fun s t i v hr hv h => ?reads, fun s t a d ha h => ?hrw, fun s t a d ha h => ?hrr⟩
  case writes =>
    by_contra hw
    exact hne (exec_vcache_of_not_hrw (fun a d hi ha => hw ⟨a, d, hi, ha⟩) h)
  case reads =>
    by_cases hw : ∃ a d, i = .hrw a d ∧ a.toNat < s.cfg.dacSpan
    · obtain ⟨a, d, rfl, ha⟩ := hw
      exact ⟨_, exec_hrw_dac_replaceVcache hv ha h⟩
    · exact ⟨v, exec_replaceVcache v (fun a d hi ha => hr ⟨a, d, hi, ha⟩) (fun a d hi ha => hw ⟨a, d, hi, ha⟩) h⟩
  case hrw =>
    obtain ⟨u, hu, rfl⟩ := execHrw_dac_ok ha h
    exact updateVoltage_vcache (t := u) hu
  case hrr =>
    obtain ⟨v, hv, rfl⟩ := execHrr_dac_ok (d := d) ha h
    exact ⟨v, ⟨.ok, voltResult v⟩, hv, rfl, voltResult_toNat v, rfl⟩

end Sys2Proof.Machine

/-! ## The read-request word (30_encoding.md R77)

The formula is the concatenation of the word's three fields; every statement about a field is then read off it. -/

namespace Sys2Proof.Machine

/-- The formula of R77 fits 16 bits as long as the 1-based channel fits its three-bit field: nothing is truncated. -/
theorem rdreqWord_toNat {sub : Nat} (h : sub < 7) : (rdreqWord sub).toNat = 0x8000 ||| ((sub + 1) <<< 12) := by
  have hshift : (sub + 1) <<< 12 < 2 ^ 16 := by rw [Nat.shiftLeft_eq]; omega
  rw [rdreqWord, BitVec.toNat_ofNat, Nat.mod_eq_of_lt (Nat.or_lt_two_pow (by decide) hshift)]

/-- Bit 15, the 1-based channel in bits 14:12 and the zeros in bits 11:0, one after the other. -/
theorem rdreqWord_eq_fields {sub : Nat} (h : sub < 7) :
    rdreqWord sub = 1#1 ++ (BitVec.ofNat 3 (sub + 1) ++ 0#12) := by
  apply BitVec.eq_of_toNat_eq
  have hchannel : (BitVec.ofNat 3 (sub + 1)).toNat = sub + 1 := by
    rw [BitVec.toNat_ofNat, Nat.mod_eq_of_lt (by omega)]
  rw [rdreqWord_toNat h, BitVec.toNat_append, BitVec.toNat_append, hchannel, BitVec.toNat_zero, Nat.or_zero]
  rfl

theorem getLsbD_rdreqWord_top {sub : Nat} (h : sub < 7) : (rdreqWord sub).getLsbD 15 = true := by
  rw [rdreqWord_eq_fields h, BitVec.getLsbD_append]
  rfl

theorem channel_rdreqWord {sub : Nat} (h : sub < 7) :
    (rdreqWord sub).extractLsb' 12 3 = BitVec.ofNat 3 (sub + 1) := by
  rw [rdreqWord_eq_fields h, BitVec.extractLsb'_append_eq_of_add_le (by decide), BitVec.extractLsb'_append_eq_left]

theorem data_rdreqWord {sub : Nat} (h : sub < 7) : (rdreqWord sub).extractLsb' 0 12 = 0#12 := by
  rw [rdreqWord_eq_fields h, BitVec.extractLsb'_append_eq_of_add_le (by decide), BitVec.extractLsb'_append_eq_right]

/-- Settles O5: the fields are those of `rdreqWord_eq_fields`, and the four values are the formula evaluated. -/
theorem readRequestWordFields : Obligations.ReadRequestWordFields := by
  refine ⟨fun sub hsub => ?fields, rfl, rfl, rfl, rfl⟩
  case fields =>
    have h : sub < 7 := by omega
    exact ⟨getLsbD_rdreqWord_top h, channel_rdreqWord h, data_rdreqWord h, rdreqWord_toNat h⟩

end Sys2Proof.Machine

/-! ## The address translator (40_address_translator.md R101 to R105) -/

namespace Sys2Proof.Machine

/-- Settles O9, range by range: the span that ends the address map is `DAC_SPAN + TEMP_SPAN`, or `DAC_SPAN` alone where
there is no temperature domain. -/
theorem translateClassifiesAddresses : Obligations.TranslateClassifiesAddresses := by
  intro c a
  refine ⟨translateAddress_dac, fun n => translateAddress_temp, fun n hn h => ?aboveTemp, fun hn h => ?noTemp⟩
  case aboveTemp =>
    have hend : c.dacSpan + c.tempSpan.getD 0 ≤ a.toNat := by rwa [hn, Option.getD_some]
    exact translateAddress_outOfRange hend
  case noTemp =>
    have hend : c.dacSpan + c.tempSpan.getD 0 ≤ a.toNat := by rwa [hn, Option.getD_none, Nat.add_zero]
    exact translateAddress_outOfRange hend

/-- Settles O10: five fields are `decompose` read off; the two bounds are those of `subOf` and `chipSelOf`. -/
theorem decompositionFields : Obligations.DecompositionFields := fun _ a =>
  ⟨rfl, rfl, rfl, subOf_lt a, rfl, rfl, chipSelOf_lt⟩

end Sys2Proof.Machine

/-! ## The shadow cache (42_register_cache.md R140 to R143)

Each operation answers through its `_eq_ok` lemma; what the statements add is the value of a clamped word, the bits of a
control word with one power bit written, and what `updateVoltage` and `setPower` leave in the arrays. -/

namespace Sys2Proof.Machine

/-! ### Voltages -/

/-- The clamp saturates: 4095 fits the 12 bits, so that nothing wraps (42_register_cache.md R140). -/
theorem clampVoltage_toNat (w : Word16) : (clampVoltage w).toNat = min w.toNat 4095 := by
  have hfits : min w.toNat 4095 < 2 ^ 12 := by omega
  rw [clampVoltage, BitVec.toNat_ofNat, Nat.mod_eq_of_lt hfits]

theorem cacheVoltage_getElem?_self {s t : State} {ch : Nat} {w : Word16} (h : cacheVoltage ch w s = .ok t) :
    t.vcache[ch]? = some (clampVoltage w) := by
  obtain ⟨hch, rfl⟩ := cacheVoltage_eq_ok.1 h
  exact List.getElem?_set_self hch

theorem updateVoltage_getElem?_self {s t : State} {a w : Word16} (h : updateVoltage a w s = .ok t) :
    t.vcache[a.toNat]? = some (clampVoltage w) := by
  obtain ⟨u, hu, hvcache⟩ := updateVoltage_vcache h
  rw [hvcache, cacheVoltage_getElem?_self hu]

/-- Settles O16: the answered state is that of `cacheVoltage_of_lt`, one entry set to the clamped word. -/
theorem cacheVoltageSaturates : Obligations.CacheVoltageSaturates := by
  intro s ch w hch
  have hok := cacheVoltage_of_lt w hch
  exact ⟨_, hok, rfl, ⟨_, cacheVoltage_getElem?_self hok, clampVoltage_toNat w⟩,
    fun _ hk => List.getElem?_set_ne hk.symm⟩

/-- Settles O17: `readVoltage` is the array's entry, and both writers leave the clamped word there. -/
theorem readVoltageReturnsStored : Obligations.ReadVoltageReturnsStored := by
  refine ⟨fun s ch v h => ?stored, fun s t ch w h => ?afterCache, fun s t a w h => ?afterUpdate⟩
  case stored => exact readVoltage_eq_ok.2 h
  case afterCache => exact ⟨_, readVoltage_eq_ok.2 (cacheVoltage_getElem?_self h), clampVoltage_toNat w⟩
  case afterUpdate => exact ⟨_, readVoltage_eq_ok.2 (updateVoltage_getElem?_self h), clampVoltage_toNat w⟩

/-! ### Control words -/

/-- The mask of any sub-channel has no bit but `sub + 2`, also where that bit is shifted out of the word. -/
theorem getLsbD_powerMask_of_ne {sub k : Nat} (h : k ≠ sub + 2) : (powerMask sub).getLsbD k = false := by
  rw [powerMask, BitVec.getLsbD_shiftLeft, BitVec.getLsbD_one]
  by_cases hbelow : k < sub + 2
  · simp [hbelow]
  · have habove : k - (sub + 2) ≠ 0 := by omega
    simp [habove]

/-- Writing a power bit leaves every other bit, for any sub-channel (42_register_cache.md R142). -/
theorem getLsbD_withPower_of_ne {w : Word16} {sub k : Nat} {on : Bool} (h : k ≠ sub + 2) :
    (withPower w sub on).getLsbD k = w.getLsbD k := by
  have hmask := getLsbD_powerMask_of_ne h
  cases on with
  | true => rw [withPower, if_pos rfl, BitVec.getLsbD_or, hmask, Bool.or_false]
  | false =>
    rw [withPower, if_neg (by decide), BitVec.getLsbD_and, BitVec.getLsbD_not, hmask]
    by_cases hk : k < 16
    · simp [hk]
    · rw [BitVec.getLsbD_of_ge w k (by omega), Bool.false_and]

/-- `setPower` writes CCACHE at the owning chip only, with that sub-channel's power bit written (43_control_engine.md
R165). -/
theorem setPower_ccache {s t : State} {a : Word16} {on : Bool} (h : setPower a on s = .ok t) :
    ∃ old, s.ccache[chipSelOf a]? = some old ∧
      t.ccache = s.ccache.set (chipSelOf a) (withPower old (subOf a) on) := by
  obtain ⟨hsel, hchip, old, hold⟩ := setPower_ok h
  rw [setPower_eq on hsel hchip hold] at h
  cases h
  exact ⟨old, hold, rfl⟩

/-- Settles O18: `cacheControl` sets one entry of the array to `w`, and the entry `setPower` sets is `withPower` of the
old one. -/
theorem cacheControlOverwrites : Obligations.CacheControlOverwrites := by
  refine ⟨fun s j w hj => ?overwrites, fun w sub k on => getLsbD_withPower_of_ne, fun s t a on h => ?setPower⟩
  case overwrites =>
    exact ⟨_, cacheControl_of_lt w hj, rfl, List.getElem?_set_self hj, fun _ hk => List.getElem?_set_ne hk.symm⟩
  case setPower =>
    obtain ⟨old, hold, hccache⟩ := setPower_ccache h
    obtain ⟨hlt, _⟩ := List.getElem?_eq_some_iff.1 hold
    rw [hccache]
    exact ⟨old, withPower old (subOf a) on, hold, List.getElem?_set_self hlt, fun _ => getLsbD_withPower_of_ne,
      fun _ hj => List.getElem?_set_ne hj.symm⟩

/-- Settles O19: the sub-channel and the chip's word exist, so `readControlBit_eq_ok` gives that word's bit. -/
theorem readControlBitExtracts : Obligations.ReadControlBitExtracts :=
  fun _ _ _ w hsub hw => readControlBit_eq_ok.2 ⟨hsub, w, hw, rfl⟩

end Sys2Proof.Machine

/-! ## The control engine (43_control_engine.md R167) -/

namespace Sys2Proof.Machine

/-- Settles O23: the owning chip and the sub-channel are the quotient and the remainder of the address by 4, so the bit is
that of `getPower_eq`. -/
theorem getPowerReadsCachedBit : Obligations.GetPowerReadsCachedBit := by
  intro s a w hw
  have hchip : s.ccache[chipSelOf a]? = some w := hw
  exact getPower_eq hchip

end Sys2Proof.Machine

/-! ## The reset state (70_reset_and_hazards.md R331) -/

namespace Sys2Proof.Machine

@[simp] theorem resetWith_vcache (c : Config) : (State.resetWith c).vcache = List.replicate c.dacSpan 0#12 := rfl

/-- Settles O46: VCACHE is `dacSpan` copies of 0 at reset, so every index below `dacSpan` finds one. -/
theorem resetClearsVoltageShadow : Obligations.ResetClearsVoltageShadow := by
  intro c k hk
  rw [resetWith_vcache]
  exact List.getElem?_replicate_of_lt hk

end Sys2Proof.Machine

/-! ## The encodings (30_encoding.md)

The decoder's cases are said once, as the words of each kind; the two round trips are then one case per kind of word. -/

namespace Sys2Proof.Machine

/-! ### Requests -/

/-- The request port drops no bit: the word is the word of the instruction it decodes to (30_encoding.md R70, R72). -/
theorem encode_decodeReq (c : Config) (w : ReqWord) : encode c (decodeReq w) = .req w := by
  have hword : ∀ k, (reqOp w).toNat = k →
      Code.req (reqWord (BitVec.ofNat 3 k) (reqAddr w) (reqData w)) = .req w := by
    rintro k rfl
    rw [BitVec.ofNat_toNat, BitVec.setWidth_eq, reqWord_of_fields]
  unfold decodeReq
  split
  case h_8 h0 h1 h2 h3 h4 h5 h6 =>
    have hlt := (reqOp w).isLt
    have hop : (reqOp w).toNat = 7 := by grind
    exact hword 7 hop
  all_goals exact hword _ ‹_›

/-- A request is well formed with every address and payload. -/
theorem wf_decodeReq (c : Config) (w : ReqWord) : (decodeReq w).wf c = true := by
  unfold decodeReq
  split <;> rfl

theorem decode_encode_of_request {c : Config} {i : Instr} {w : ReqWord} (h : encode c i = .req w) :
    decode c (encode c i) = .ok i := by
  cases i with
  | hrr | hrw | irr | cr | cw | ill5 | ill6 | ill7 => simp [encode, decode, decodeReq]
  | _ => cases h

/-! ### SPI command words -/

theorem isVoltRdreqOrNull_eq_false {w : Word16} :
    isVoltRdreqOrNull w = false ↔
      ((w.extractLsb' 12 4).toNat ≠ 1 ∧ (w.extractLsb' 12 4).toNat ≠ 2 ∧ (w.extractLsb' 12 4).toNat ≠ 3 ∧
        (w.extractLsb' 12 4).toNat ≠ 4) ∧
      w ≠ 0x9000#16 ∧ w ≠ 0xA000#16 ∧ w ≠ 0xB000#16 ∧ w ≠ 0xC000#16 ∧ w ≠ 0x0000#16 := by
  have hnibble : ∀ n : BitVec 4, w.extractLsb' 12 4 = n ↔ (w.extractLsb' 12 4).toNat = n.toNat :=
    fun n => BitVec.toNat_inj.symm
  simp only [isVoltRdreqOrNull, Bool.or_eq_false_iff, beq_eq_false_iff_ne, ne_eq, hnibble, and_assoc]
  rfl

/-- A word of no other kind is a control word exactly where its fixed bits are those of `CTRL_INIT` (log 11). -/
theorem decodeSpi_of_no_other_kind {c : Config} {w : Word16} (h : isVoltRdreqOrNull w = false) :
    decodeSpi c w =
      if w &&& ctrlFixedMask = c.ctrlInit &&& ctrlFixedMask then .ok (.ctrl (w.extractLsb' 2 4))
      else .error .unknownCommandWord := by
  obtain ⟨⟨h1, h2, h3, h4⟩, h9, hA, hB, hC, h0⟩ := isVoltRdreqOrNull_eq_false.1 h
  unfold decodeSpi
  split
  · exact absurd ‹_› h1
  · exact absurd ‹_› h2
  · exact absurd ‹_› h3
  · exact absurd ‹_› h4
  · rw [if_neg h9, if_neg hA, if_neg hB, if_neg hC, if_neg h0]

/-- Settles O1: a request by its three fields, a VOLT word by its nibble, a control word by its fixed bits. -/
theorem decodeOfEncodeIsSame : Obligations.DecodeOfEncodeIsSame := by
  intro c i hwf
  cases i with
  | hrr | hrw | irr | cr | cw | ill5 | ill6 | ill7 => exact decode_encode_of_request rfl
  | voltCh0 | voltCh1 | voltCh2 | voltCh3 => simp [encode, decode, decodeSpi]
  | rdreqCh0 | rdreqCh1 | rdreqCh2 | rdreqCh3 | null => rfl
  | ctrl p =>
    have hother : isVoltRdreqOrNull (ctrlPattern c.ctrlInit p) = false := by simpa [Instr.wf] using hwf
    simp [encode, decode, decodeSpi_of_no_other_kind hother]

theorem decodeSpi_of_encode {c : Config} {i : Instr} {w : Word16} (h : encode c i = .spi w) (hwf : i.wf c = true) :
    decodeSpi c w = .ok i := by
  have hround := decodeOfEncodeIsSame c i hwf
  rwa [h] at hround

/-- Every command word that decodes is the word of what it decodes to, kind by kind. -/
theorem encode_of_decodeSpi {c : Config} {w : Word16} {i : Instr} (h : decodeSpi c w = .ok i) :
    encode c i = .spi w ∧ i.wf c = true := by
  have hvolt : ∀ k, (w.extractLsb' 12 4).toNat = k → voltPattern (BitVec.ofNat 4 k) (w.extractLsb' 0 12) = w := by
    rintro k rfl
    rw [BitVec.ofNat_toNat, BitVec.setWidth_eq, voltPattern_of_fields]
  unfold decodeSpi at h
  split at h
  case h_1 h1 => cases h; exact ⟨congrArg Code.spi (hvolt 1 h1), rfl⟩
  case h_2 h2 => cases h; exact ⟨congrArg Code.spi (hvolt 2 h2), rfl⟩
  case h_3 h3 => cases h; exact ⟨congrArg Code.spi (hvolt 3 h3), rfl⟩
  case h_4 h4 => cases h; exact ⟨congrArg Code.spi (hvolt 4 h4), rfl⟩
  case h_5 h1 h2 h3 h4 =>
    split_ifs at h with h9 hA hB hC h0 hfixed <;> cases h
    · exact ⟨congrArg Code.spi h9.symm, rfl⟩
    · exact ⟨congrArg Code.spi hA.symm, rfl⟩
    · exact ⟨congrArg Code.spi hB.symm, rfl⟩
    · exact ⟨congrArg Code.spi hC.symm, rfl⟩
    · exact ⟨congrArg Code.spi h0.symm, rfl⟩
    · have hw : ctrlPattern c.ctrlInit (w.extractLsb' 2 4) = w := ctrlPattern_of_fields hfixed
      have hkind := isVoltRdreqOrNull_eq_false.2 ⟨⟨h1, h2, h3, h4⟩, h9, hA, hB, hC, h0⟩
      exact ⟨congrArg Code.spi hw, by rw [Instr.wf, hw, hkind, Bool.not_false]⟩

/-- Settles O2: request words by `encode_decodeReq`, command words kind by kind. -/
theorem encodeOfDecodeIsSame : Obligations.EncodeOfDecodeIsSame := by
  intro c code i h
  cases code with
  | req w =>
    cases h
    exact ⟨encode_decodeReq c w, wf_decodeReq c w⟩
  | spi w => exact encode_of_decodeSpi h

/-- Settles O3: the decoder evaluated. -/
theorem knownWordsDecode : Obligations.KnownWordsDecode := by
  unfold Obligations.KnownWordsDecode
  decide

/-! ### Fields of the command words -/

/-- The 1-based channel over the raw payload's low 12 bits: the formula of R76 as a table pattern (30_encoding.md R76,
D25). -/
theorem voltWord_eq_fields {sub : Nat} (h : sub < 15) (v : Word16) :
    voltWord sub v = BitVec.ofNat 4 (sub + 1) ++ v.extractLsb' 0 12 := by
  apply BitVec.eq_of_toNat_eq
  have hshift : (sub + 1) <<< 12 < 2 ^ 16 := by rw [Nat.shiftLeft_eq]; omega
  have hlow : v.toNat % 4096 < 2 ^ 16 := by omega
  have hchannel : (BitVec.ofNat 4 (sub + 1)).toNat = sub + 1 := by
    rw [BitVec.toNat_ofNat, Nat.mod_eq_of_lt (by omega)]
  rw [voltWord, BitVec.toNat_ofNat, Nat.mod_eq_of_lt (Nat.or_lt_two_pow hlow hshift), BitVec.toNat_append, hchannel,
    BitVec.extractLsb'_toNat, Nat.shiftRight_zero, Nat.or_comm]

/-- Settles O4: the two fields of `voltWord_eq_fields`. -/
theorem voltWordFields : Obligations.VoltWordFields := by
  intro sub v hsub
  rw [voltWord_eq_fields (by omega)]
  exact ⟨BitVec.extractLsb'_append_eq_left, BitVec.extractLsb'_append_eq_right⟩

/-- The readback is the word shifted within 12 bits (30_encoding.md R82). -/
theorem readback_eq_shift (rx : Word16) : readback rx = rx.setWidth 12 <<< 1 := by
  apply BitVec.eq_of_toNat_eq
  simp [readback, Nat.shiftLeft_eq]

theorem readback_toNat (rx : Word16) : (readback rx).toNat = rx.toNat * 2 % 4096 := by
  simp [readback, Nat.shiftLeft_eq]

/-- Settles O6: the bits are those of the shift, the value is the formula's. -/
theorem readbackShiftsAndTruncates : Obligations.ReadbackShiftsAndTruncates := by
  intro rx
  refine ⟨?bit0, fun k hk => ?above, readback_toNat rx⟩
  case bit0 => simp [readback_eq_shift]
  case above => simp [readback_eq_shift, show k + 1 < 12 by omega]

/-- The first `k` bits off the wire are the word's upper `k` bits (20_memory.md R55). -/
theorem wordOfWire_range (w : Word16) {k : Nat} (hk : k ≤ 16) :
    wordOfWire ((List.range k).map fun n => w.getLsbD (15 - n)) = w >>> (16 - k) := by
  induction k with
  | zero => exact (BitVec.ushiftRight_eq_zero (Nat.le_refl 16)).symm
  | succ k ih =>
    have hprev := ih (by omega)
    rw [wordOfWire] at hprev ⊢
    rw [List.range_succ, List.map_append, List.foldl_append, hprev]
    apply BitVec.eq_of_getLsbD_eq
    intro i hi
    by_cases h0 : i = 0
    · simp [h0]
    · simp [hi, h0, show 16 - k + (i - 1) = 15 - k + i by omega]

/-- Settles O7: the order is `wireBits` read off, and all 16 bits together are the word. -/
theorem wireOrderIsMostSignificantFirst : Obligations.WireOrderIsMostSignificantFirst := by
  intro w
  refine ⟨by simp [wireBits], fun k hk => by simp [wireBits, hk], ?_⟩
  have h := wordOfWire_range w (Nat.le_refl 16)
  simpa [wireBits] using h

/-- The status code over the data (30_encoding.md R73). -/
theorem responseWord_eq_fields (r : Response) : responseWord r = statusCode r.status ++ r.rdata := by
  rw [BitVec.append_def, BitVec.shiftLeftZeroExtend_eq]
  rfl

/-- Settles O8: the two fields of `responseWord_eq_fields`, and the three codes. -/
theorem responseWordFields : Obligations.ResponseWordFields := by
  intro r
  rw [responseWord_eq_fields, BitVec.extractLsb'_append_eq_left, BitVec.extractLsb'_append_eq_right]
  refine ⟨rfl, rfl, ?code, rfl, rfl, rfl⟩
  case code => cases r.status <;> decide

/-! ### Control words -/

/-- A power bit written leaves a stored word's fixed bits those of `CTRL_INIT` (10_state.md R27). -/
theorem fixedBits_coilWrite {c : Config} {cc : List Word16} {j sub : Nat} {w : Word16}
    (hfixed : ∀ u ∈ cc, u &&& ctrlFixedMask = c.ctrlInit &&& ctrlFixedMask) (hw : cc[j]? = some w) (hsub : sub < 4)
    (on : Bool) : withPower w sub on &&& ctrlFixedMask = c.ctrlInit &&& ctrlFixedMask := by
  rw [fixedBits_withPower hsub, hfixed w (List.mem_of_getElem? hw)]

/-- Settles O36: `pwr` is the four power bits of the new word; the other bits are those of `ctrlPattern_of_fields`. -/
theorem controlWordKeepsFixedBits : Obligations.ControlWordKeepsFixedBits := by
  intro s j sub w on hinv hw hsub
  have hfixed := fixedBits_coilWrite hinv.ccacheFixed hw hsub on
  refine ⟨(withPower w sub on).extractLsb' 2 4, ?word, fun k hk => ?bit⟩
  case word => rw [ctrlWord_eq_pattern, ctrlPattern_of_fields hfixed]
  case bit => simp [hk, Nat.add_comm 2 k, getLsbD_withPower hsub]

end Sys2Proof.Machine

/-! ## The address translator (40_address_translator.md R107, R108) -/

namespace Sys2Proof.Machine

theorem chip_of_halves (a : Word16) : 2 * (chipSelOf a / 2) + chipSelOf a % 2 = chipSelOf a := by omega

theorem address_of_chip_sub (a : Word16) : 4 * chipSelOf a + subOf a = a.toNat := Nat.div_add_mod a.toNat 4

/-- Settles O11: in both topologies the outer fields give the group back, so the address is its chip and sub-channel. -/
theorem recomposeOfDecompose : Obligations.RecomposeOfDecompose := by
  intro c a
  cases ht : c.topology with
  | board => simp only [recompose, decompose, ht, chip_of_halves, address_of_chip_sub]
  | sipm n => simp only [recompose, decompose, ht, Nat.div_add_mod', chip_of_halves, address_of_chip_sub]

/-- A chip's board number exists: the chips come in pairs (00_scope.md R8, D5). -/
theorem group_lt {c : Config} {a : Word16} (hv : c.valid = true) (ha : a.toNat < c.dacSpan) :
    chipSelOf a / 2 < c.numGroups := by
  obtain ⟨hchips, _⟩ := Config.valid_iff.1 hv
  obtain ⟨heven, _⟩ := Config.chipsOk_iff.1 hchips
  have hchip := chipSelOf_lt ha
  rw [Config.numGroups]
  omega

/-- Settles O12: the chip and sub-channel bounds are those of the address; the SIPM's two are division by a divisor of
`NUM_GROUPS`. -/
theorem decompositionInRange : Obligations.DecompositionInRange := by
  intro c a hv ha
  have hchip := chipSelOf_lt ha
  have hgroup := group_lt hv ha
  refine ⟨hchip, subOf_lt a, hchip, Nat.mod_lt _ (by decide), hgroup, fun n hn => ?sipm⟩
  case sipm =>
    obtain ⟨_, htop, _⟩ := Config.valid_iff.1 hv
    obtain ⟨hpos, hdvd⟩ := Config.topologyOk_iff.1 htop n hn
    simp only [decompose, hn, Option.some.injEq, exists_eq_left']
    exact ⟨Nat.mod_lt _ hpos, Nat.div_lt_div_of_lt_of_dvd hdvd hgroup⟩

end Sys2Proof.Machine

/-! ## The chip-select multiplexer (41_chip_select.md) -/

namespace Sys2Proof.Machine

/-- `select` and the `deselect` after it answer for every chip while none is selected. -/
theorem deselect_openWindow (j : Nat) (s : State) :
    deselect (openWindow j s) = .ok (closeWindow j (openWindow j s)) := deselect_of_selected rfl

theorem lines_of_unselected {s : State} (h : Inv s) (hsel : s.sel = none) :
    s.lines = Lines.selecting s.cfg none s.lines.decA := by
  have hl := h.linesAgree
  rwa [hsel] at hl

theorem decAOk_of_unselected {s : State} (h : Inv s) (hsel : s.sel = none) : decAOk s.cfg none s.lines.decA := by
  have hd := h.decAInRange
  rwa [hsel] at hd

theorem openWindow_lines_of_inv {s : State} {j : Nat} (h : Inv s) (hsel : s.sel = none) (hj : j < s.cfg.numChips) :
    (openWindow j s).lines = Lines.selecting s.cfg (some j) (decAAfterSelect s.cfg j s.lines.decA) := by
  rw [openWindow_lines, ← driveAll_selectEvents h.cfgValid hj, ← lines_of_unselected h hsel]

/-- The select's events in the DIRECT variant name an entry of `CS_MAP` (41_chip_select.md R124, R125). -/
theorem csLine_of_lt {c : Config} {n : Nat} {m : List Nat} (hv : c.valid = true) (hc : c.cs = .direct n m) {j : Nat}
    (hj : j < c.numChips) : m[j]? = some (csLine m j) := by
  obtain ⟨_, _, _, hcs, _⟩ := Config.valid_iff.1 hv
  obtain ⟨hdirect, _⟩ := Config.csOk_iff.1 hcs
  obtain ⟨_, hlen, _⟩ := hdirect n m hc
  have hjm : j < m.length := by omega
  rw [csLine, List.getD_eq_getElem _ _ hjm, List.getElem?_eq_getElem hjm]

/-- Settles O14: the lines are those of SEL, at which `chipEnabled_selecting` reads off the enabled chip. -/
theorem onlySelectedChipIsEnabled : Obligations.OnlySelectedChipIsEnabled := by
  intro s h k hk
  rw [h.linesAgree]
  exact chipEnabled_selecting h.cfgValid h.selInRange h.decAInRange hk

/-- Settles O13: the lines inside and after the window are those of `Lines.selecting`; the events are each variant's own. -/
theorem selectEnablesExactlyThatChip : Obligations.SelectEnablesExactlyThatChip := by
  intro s j h hsel hj
  have hd := decAOk_of_unselected h hsel
  refine ⟨openWindow j s, closeWindow j (openWindow j s), select_of_idle hj hsel, rfl, fun k hk => ?opened,
    deselect_openWindow j s, rfl, fun k hk => ?closed, fun n m hc => ?direct, fun n hc => ?decoded⟩
  case opened =>
    have hin : ∀ i, some j = some i → i < s.cfg.numChips := by rintro i ⟨⟩; exact hj
    rw [openWindow_lines_of_inv h hsel hj,
      chipEnabled_selecting h.cfgValid hin (decAOk_afterSelect h.cfgValid hj hd (.inr rfl)) hk]
    simp only [Option.some.injEq, eq_comm]
  case closed =>
    rw [closeWindow_lines, openWindow_cfg, openWindow_lines_of_inv h hsel hj, driveAll_deselectEvents,
      chipEnabled_selecting (sel := none) h.cfgValid nofun (decAOk_afterSelect h.cfgValid hj hd (.inl rfl)) hk]
    rfl
  case direct =>
    refine ⟨csLine m j, csLine_of_lt h.cfgValid hc hj, ?_, ?_⟩ <;> simp [selectEvents, deselectEvents, hc]
  case decoded =>
    have hlt : j < 2 ^ n := lt_of_lt_of_le hj (numChips_le_decoded h.cfgValid hc)
    constructor <;> simp [selectEvents, deselectEvents, hc, Nat.mod_eq_of_lt hlt]

theorem select_of_ge {s : State} {j : Nat} (h : s.cfg.numChips ≤ j) : select j s = .error .selectOutOfRange := by
  rw [select, if_neg (Nat.not_lt.2 h)]

theorem select_of_selected {s : State} {j k : Nat} (hj : j < s.cfg.numChips) (h : s.sel = some k) :
    select j s = .error .nestedSelect := by
  rw [select, if_pos hj, h]

theorem deselect_of_unselected {s : State} (h : s.sel = none) : deselect s = .error .deselectWithoutSelect := by
  rw [deselect, h]

theorem strobe_of_selected {s : State} {k : Nat} (h : s.sel = some k) : strobe s = .error .strobeInWindow := by
  rw [strobe, h]

/-- Settles O15: each operation with its own precondition broken. -/
theorem brokenPreconditionsFault : Obligations.BrokenPreconditionsFault := fun _ _ _ tx =>
  ⟨select_of_ge, select_of_selected, deselect_of_unselected, xfer_of_unselected tx, strobe_of_selected⟩

end Sys2Proof.Machine

/-! ## Indices outside the shadow arrays (42_register_cache.md R144) -/

namespace Sys2Proof.Machine

/-- Settles O20: outside the array there is no entry to store into or to read, and no sub-channel from 4 on. -/
theorem cacheIndexOutOfRangeFaults : Obligations.CacheIndexOutOfRangeFaults := by
  intro s k sub w
  refine ⟨fun hk => ?voltage, fun hk => ?control, fun hsub => ?sub⟩
  case voltage =>
    exact ⟨if_neg (Nat.not_lt.2 hk), by rw [readVoltage, List.getElem?_eq_none hk]⟩
  case control =>
    exact ⟨if_neg (Nat.not_lt.2 hk), by rw [readControlBit, List.getElem?_eq_none hk, ite_self]⟩
  case sub => exact if_neg (Nat.not_lt.2 hsub)

end Sys2Proof.Machine

/-! ## Bus windows (43_control_engine.md R172)

The three operations that use the bus do the same thing: they select a chip, transfer words, deselect, and perhaps pulse
the strobe. A `Window` names that, and everything about lines, events and the invariant is proved of it once. -/

namespace Sys2Proof.Machine

/-- One use of the bus: the chip, the words transferred to it, and whether the strobe follows. -/
structure Window where
  chip : Nat
  words : List Word16
  strobed : Bool

/-- The transfers of some words, the first of which takes draw `n`. -/
def transfers : List Word16 → Nat → List Event
  | [], _ => []
  | w :: ws, n => .xfer w (Config.rxDraw n) :: transfers ws (n + 1)

/-- The events of a window whose first transfer takes draw `n`. -/
def Window.events (x : Window) (c : Config) (n : Nat) : List Event :=
  selectEvents c x.chip ++ transfers x.words n ++ deselectEvents c x.chip ++ if x.strobed then strobeEvents else []

/-- The state after a whole window. -/
def Window.after (x : Window) (s : State) : State :=
  { s with
    trace := s.trace ++ x.events s.cfg s.draws
    lines := driveAll s.lines (x.events s.cfg s.draws)
    sclk := sclkIdle s.cfg
    mosi := Config.mosiIdle (s.draws + x.words.length)
    draws := s.draws + x.words.length }

def updateWindow (a v : Word16) : Window := ⟨chipSelOf a, [voltWord (subOf a) v], true⟩

def readWindow (a : Word16) : Window := ⟨chipSelOf a, [rdreqWord (subOf a)], false⟩

def powerWindow (c : Config) (a w : Word16) : Window :=
  ⟨chipSelOf a, if c.nullWordAfterCtrl then [w, nullWord] else [w], false⟩

/-! ### The engine's operations as windows -/

theorem events_readWindow (c : Config) (a : Word16) (n : Nat) :
    (readWindow a).events c n = readTrace c a (Config.rxDraw n) := List.append_nil _

theorem transfers_powerWindow (c : Config) (a w : Word16) (n : Nat) :
    transfers (powerWindow c a w).words n = powerTransfers c w n := by
  cases hn : c.nullWordAfterCtrl <;> simp [powerWindow, powerTransfers, transfers, hn]

theorem events_powerWindow (c : Config) (a w : Word16) (n : Nat) :
    (powerWindow c a w).events c n = powerTrace c a w n := by
  rw [Window.events, transfers_powerWindow]
  exact List.append_nil _

theorem length_powerWindow (c : Config) (a w : Word16) :
    (powerWindow c a w).words.length = if c.nullWordAfterCtrl then 2 else 1 := by
  cases hn : c.nullWordAfterCtrl <;> simp [powerWindow, hn]

theorem length_powerTransfers (c : Config) (w : Word16) (n : Nat) :
    (powerTransfers c w n).length = if c.nullWordAfterCtrl then 2 else 1 := by
  cases hn : c.nullWordAfterCtrl <;> simp [powerTransfers, hn]

theorem updateVoltage_window {s : State} {a : Word16} (v : Word16) (hsel : s.sel = none)
    (ha : a.toNat < s.vcache.length) (hj : chipSelOf a < s.cfg.numChips) :
    updateVoltage a v s =
      .ok ((updateWindow a v).after { s with vcache := s.vcache.set a.toNat (clampVoltage v) }) :=
  updateVoltage_eq v hsel ha hj

theorem readVoltageApprox_window {s : State} {a : Word16} (hsel : s.sel = none) (hj : chipSelOf a < s.cfg.numChips) :
    readVoltageApprox a s = .ok (readback (Config.rxDraw s.draws), (readWindow a).after s) := by
  rw [readVoltageApprox_eq hsel hj, ← events_readWindow]
  rfl

theorem setPower_window {s : State} {a w : Word16} (on : Bool) (hsel : s.sel = none) (hj : chipSelOf a < s.cfg.numChips)
    (hw : s.ccache[chipSelOf a]? = some w) :
    setPower a on s =
      .ok ((powerWindow s.cfg a (withPower w (subOf a) on)).after
        { s with ccache := s.ccache.set (chipSelOf a) (withPower w (subOf a) on) }) := by
  rw [setPower_eq on hsel hj hw, ← events_powerWindow, ← length_powerWindow s.cfg a (withPower w (subOf a) on)]
  rfl

/-- Settles O21: the engine's equation, and the value of the readback. -/
theorem readVoltageApproxRunsOneReadback : Obligations.ReadVoltageApproxRunsOneReadback := by
  intro s a hsel hj
  have hval := readback_toNat (Config.rxDraw s.draws)
  exact ⟨readVoltageApprox_eq hsel hj, by omega, hval⟩

/-- Settles O22: the engine's equation, and the bits of the word it stores and sends. -/
theorem setPowerRunsOneControlTransaction : Obligations.SetPowerRunsOneControlTransaction := by
  intro s a on w hsel hj hw
  refine ⟨?_, ?bit, fun k hk => getLsbD_withPower_of_ne hk⟩
  · rw [length_powerTransfers]
    exact setPower_eq on hsel hj hw
  case bit => rw [getLsbD_withPower (Nat.mod_lt _ (by decide)), if_pos rfl]

/-! ### The lines of a window -/

theorem driveAll_transfers (ws : List Word16) (n : Nat) (l : Lines) : driveAll l (transfers ws n) = l := by
  induction ws generalizing n with
  | nil => rfl
  | cons w ws ih => exact ih (n + 1)

theorem driveAll_events {c : Config} {x : Window} (hv : c.valid = true) (hj : x.chip < c.numChips) (d n : Nat) :
    driveAll (Lines.selecting c none d) (x.events c n) = Lines.selecting c none (decAAfterSelect c x.chip d) := by
  apply driveAll_window hv hj (driveAll_transfers x.words n)
  cases x.strobed with
  | true => exact .inr rfl
  | false => exact .inl rfl

theorem driveAll_events_of_inv {s : State} {x : Window} (h : Inv s) (hsel : s.sel = none)
    (hj : x.chip < s.cfg.numChips) (n : Nat) :
    driveAll s.lines (x.events s.cfg n) = { s.lines with decA := decAAfterSelect s.cfg x.chip s.lines.decA } := by
  have hl := lines_of_unselected h hsel
  conv_lhs => rw [hl, driveAll_events h.cfgValid hj]
  rw [selecting_none_set (decAOk_of_unselected h hsel), ← hl]

/-! ### The bus rules in a window -/

theorem eventAllowed_xfer {c : Config} {j d : Nat} (hv : c.valid = true) (hj : j < c.numChips) (tx rx : Word16) :
    eventAllowed c (Lines.selecting c (some j) d) (.xfer tx rx) = true := by
  rw [eventAllowed, windowOpen_some hv hj, selecting_ldacN, Bool.and_true]

theorem busSafe_selectEvents (c : Config) (j d : Nat) :
    busSafe c (Lines.selecting c none d) (selectEvents c j) = true := by
  cases hc : c.cs <;> simp [busSafe, selectEvents, eventAllowed, windowOpen, Lines.selecting, drive, hc]

theorem busSafe_deselectEvents (c : Config) (l : Lines) (j : Nat) : busSafe c l (deselectEvents c j) = true := by
  cases hc : c.cs <;> simp [busSafe, deselectEvents, eventAllowed, hc]

theorem busSafe_strobeEvents (c : Config) (d : Nat) :
    busSafe c (Lines.selecting c none d) strobeEvents = true := by
  cases hc : c.cs <;> simp [busSafe, strobeEvents, eventAllowed, windowOpen, Lines.selecting, drive, hc]

theorem busSafe_transfers {c : Config} {j d : Nat} (hv : c.valid = true) (hj : j < c.numChips) (ws : List Word16)
    (n : Nat) : busSafe c (Lines.selecting c (some j) d) (transfers ws n) = true := by
  induction ws generalizing n with
  | nil => rfl
  | cons w ws ih => rw [transfers, busSafe, eventAllowed_xfer hv hj, drive_xfer, ih, Bool.true_and]

/-- A whole window keeps the bus rules, part by part, each at the lines the part before it left. -/
theorem busSafe_events {c : Config} {x : Window} (hv : c.valid = true) (hj : x.chip < c.numChips) (d n : Nat) :
    busSafe c (Lines.selecting c none d) (x.events c n) = true := by
  have hstrobe : ∀ e, busSafe c (Lines.selecting c none e) (if x.strobed then strobeEvents else []) = true := by
    intro e
    cases x.strobed with
    | true => exact busSafe_strobeEvents c e
    | false => rfl
  simp only [Window.events, busSafe_append, driveAll_append, driveAll_selectEvents hv hj, driveAll_transfers,
    driveAll_deselectEvents, busSafe_selectEvents, busSafe_transfers hv hj, busSafe_deselectEvents, hstrobe,
    Bool.and_self]

/-! ### What a window shows beyond its chip select -/

theorem logicalTrace_selectEvents (c : Config) (j : Nat) : logicalTrace (selectEvents c j) = [] := by
  cases hc : c.cs <;> simp [logicalTrace, selectEvents, Event.isLogical, hc]

theorem logicalTrace_deselectEvents (c : Config) (j : Nat) : logicalTrace (deselectEvents c j) = [] := by
  cases hc : c.cs <;> simp [logicalTrace, deselectEvents, Event.isLogical, hc]

/-- The logical events of a window do not depend on the configuration (41_chip_select.md R120). -/
theorem logicalTrace_events (x : Window) (c : Config) (n : Nat) :
    logicalTrace (x.events c n) =
      logicalTrace (transfers x.words n) ++ logicalTrace (if x.strobed then strobeEvents else []) := by
  simp only [Window.events, logicalTrace_append, logicalTrace_selectEvents, logicalTrace_deselectEvents,
    List.nil_append, List.append_nil]

theorem mem_transfers {tx rx : Word16} {ws : List Word16} {n : Nat} (h : Event.xfer tx rx ∈ transfers ws n) :
    tx ∈ ws := by
  induction ws generalizing n with
  | nil => cases h
  | cons w ws ih =>
    rcases List.mem_cons.1 h with heq | hrest
    · cases heq
      exact List.mem_cons_self
    · exact List.mem_cons_of_mem w (ih hrest)

theorem xfer_mem_logicalTrace {tx rx : Word16} {es : List Event} :
    Event.xfer tx rx ∈ logicalTrace es ↔ Event.xfer tx rx ∈ es := by
  simp [logicalTrace, Event.isLogical]

/-- The words transferred in a window are its words. -/
theorem word_of_mem_events {x : Window} {c : Config} {n : Nat} {tx rx : Word16}
    (h : Event.xfer tx rx ∈ x.events c n) : tx ∈ x.words := by
  rw [← xfer_mem_logicalTrace, logicalTrace_events, List.mem_append] at h
  rcases h with htransfer | hstrobe
  · exact mem_transfers (xfer_mem_logicalTrace.1 htransfer)
  · cases hs : x.strobed <;> simp [hs, logicalTrace, strobeEvents] at hstrobe

/-! ### The invariant over a window -/

theorem Inv.withShadows {s : State} (h : Inv s) {v : List Volt12} {cc : List Word16} (hv : v.length = s.vcache.length)
    (hcc : cc.length = s.ccache.length)
    (hfixed : ∀ w ∈ cc, w &&& ctrlFixedMask = s.cfg.ctrlInit &&& ctrlFixedMask) :
    Inv { s with vcache := v, ccache := cc } :=
  { h with
    vcacheLength := hv.trans h.vcacheLength
    ccacheLength := hcc.trans h.ccacheLength
    ccacheFixed := hfixed }

theorem Window.after_inv {s : State} {x : Window} (h : Inv s) (hsel : s.sel = none) (hj : x.chip < s.cfg.numChips) :
    Inv (x.after s) := by
  have hd := decAOk_afterSelect h.cfgValid hj (decAOk_of_unselected h hsel) (.inl rfl)
  have hl : (x.after s).lines = Lines.selecting s.cfg s.sel (decAAfterSelect s.cfg x.chip s.lines.decA) := by
    rw [hsel, ← driveAll_events h.cfgValid hj, ← lines_of_unselected h hsel]
    rfl
  have hdec : (x.after s).lines.decA = decAAfterSelect s.cfg x.chip s.lines.decA := by
    rw [hl, hsel, selecting_decA hd]
  exact
    { h with
      linesAgree := hl.trans (by rw [hdec]; rfl)
      decAInRange := by rw [hdec]; exact hsel ▸ hd
      sclkAtIdle := rfl }

end Sys2Proof.Machine

/-! ## The requests (44_request_ops.md)

A request ends in one of three ways: an answer alone, a call of the temperature unit, or one window on the bus with the
shadows written. A `Service` names which, and `exec_request` says once that every request that ends is one. -/

namespace Sys2Proof.Machine

/-- How a request is served: by an answer alone, by the temperature unit, or by a window with the shadows it leaves. -/
inductive Service where
  | answer (r : Response)
  | forward (op : BitVec 3) (off : Nat)
  | transact (x : Window) (v : List Volt12) (cc : List Word16) (r : Response)

/-- The state after a request that is served in this way. -/
def Service.apply : Service → State → State
  | .answer r, s => respond r.status r.rdata s
  | .forward op off, s => forwardTemp op off s
  | .transact x v cc r, s => respond r.status r.rdata (x.after { s with vcache := v, ccache := cc })

/-- The events of a service whose first draw is `n`. -/
def Service.events : Service → Config → Nat → List Event
  | .answer _, _, _ => []
  | .forward op off, _, n => [.tempCall op off (Config.tempStatus n) (Config.tempData n)]
  | .transact x _ _ _, c, n => x.events c n

/-- The response of a service whose first draw is `n`. -/
def Service.response : Service → Nat → Response
  | .answer r, _ => r
  | .forward _ _, n => ⟨Config.tempStatus n, Config.tempData n⟩
  | .transact _ _ _ r, _ => r

/-- What a request keeps of a state's shape: the chip exists, the shadows keep their lengths, and from control words with
the fixed bits of `CTRL_INIT` come only such control words and only words of a known kind. -/
inductive Service.Fits (s : State) : Service → Prop
  | answer (r : Response) : Fits s (.answer r)
  | forward (op : BitVec 3) (off : Nat) : Fits s (.forward op off)
  | transact {x : Window} {v : List Volt12} {cc : List Word16} (r : Response) (hchip : x.chip < s.cfg.numChips)
      (hv : v.length = s.vcache.length) (hcc : cc.length = s.ccache.length)
      (hfixed : (∀ w ∈ s.ccache, w &&& ctrlFixedMask = s.cfg.ctrlInit &&& ctrlFixedMask) →
        (∀ w ∈ cc, w &&& ctrlFixedMask = s.cfg.ctrlInit &&& ctrlFixedMask) ∧
          ∀ w ∈ x.words, ∃ i, decodeSpi s.cfg w = .ok i) :
      Fits s (.transact x v cc r)

/-! ### What a service leaves in each field -/

@[simp] theorem Service.apply_cfg (f : Service) (s : State) : (f.apply s).cfg = s.cfg := by cases f <;> rfl

@[simp] theorem Service.apply_inbox (f : Service) (s : State) : (f.apply s).inbox = s.inbox := by cases f <;> rfl

@[simp] theorem Service.apply_phase (f : Service) (s : State) : (f.apply s).phase = .idle := by cases f <;> rfl

@[simp] theorem Service.apply_responses (f : Service) (s : State) :
    (f.apply s).responses = s.responses ++ [f.response s.draws] := by cases f <;> rfl

@[simp] theorem Service.apply_trace (f : Service) (s : State) :
    (f.apply s).trace = s.trace ++ f.events s.cfg s.draws := by
  cases f with
  | answer r => exact (List.append_nil s.trace).symm
  | forward | transact => rfl

@[simp] theorem Service.apply_lines (f : Service) (s : State) :
    (f.apply s).lines = driveAll s.lines (f.events s.cfg s.draws) := by cases f <;> rfl

/-! ### The two chip-select variants -/

/-- `s` in another chip-select variant, with the lines and the trace of that variant. -/
def State.onVariant (s : State) (k : CsVariant) (l : Lines) (tr : List Event) : State :=
  { s with cfg := { s.cfg with cs := k }, lines := l, trace := tr }

/-- A service in the other variant leaves the same state but for configuration, lines and trace. -/
theorem Service.apply_onVariant (f : Service) (s : State) (k : CsVariant) (l : Lines) (tr : List Event) :
    f.apply (s.onVariant k l tr) =
      (f.apply s).onVariant k (f.apply (s.onVariant k l tr)).lines (f.apply (s.onVariant k l tr)).trace := by
  cases f <;> rfl

theorem Service.logicalTrace_events (f : Service) (c d : Config) (n : Nat) :
    logicalTrace (f.events c n) = logicalTrace (f.events d n) := by
  cases f with
  | answer | forward => rfl
  | transact x v cc r => exact (Machine.logicalTrace_events x c n).trans (Machine.logicalTrace_events x d n).symm

/-! ### Outside the DAC domain -/

/-- How a request of the five defined ops is served by the target of its address, where that is no DAC (R207, R208). -/
def outsideService : Instr → Target → Service
  | .hrr _ _, .temp off => .forward 0#3 off
  | .irr _ _, .temp off => .forward 2#3 off
  | .cr _ _, .temp off => .forward 3#3 off
  | _, _ => .answer ⟨.illegalDataAddress, 0#16⟩

theorem exec_outside {i : Instr} {a : Word16} {s : State} (hi : translatedAddress i = some a)
    (ha : ¬ a.toNat < s.cfg.dacSpan) :
    exec i s = .next ((outsideService i (translateAddress s.cfg a)).apply s) := by
  rcases translateAddress_cases s.cfg a with ⟨hlt, _⟩ | ⟨off, h⟩ | h
  · exact absurd hlt ha
  · cases i with cases hi
    | hrr => simp only [exec, execHrr, h]; rfl
    | hrw => simp only [exec, execHrw, h]; rfl
    | irr => simp only [exec, execIrr, h]; rfl
    | cr => simp only [exec, execCr, h]; rfl
    | cw => simp only [exec, execCw, h]; rfl
  · cases i with cases hi
    | hrr => simp only [exec, execHrr, h]; rfl
    | hrw => simp only [exec, execHrw, h]; rfl
    | irr => simp only [exec, execIrr, h]; rfl
    | cr => simp only [exec, execCr, h]; rfl
    | cw => simp only [exec, execCw, h]; rfl

/-- A request translates an address outside the DAC domain, or any address it translates is inside. -/
theorem outside_or_dac (i : Instr) (c : Config) :
    (∃ a, translatedAddress i = some a ∧ ¬ a.toNat < c.dacSpan) ∨
      ∀ a, translatedAddress i = some a → a.toNat < c.dacSpan := by
  cases translatedAddress i with
  | none => exact .inr nofun
  | some b =>
    by_cases hb : b.toNat < c.dacSpan
    · exact .inr fun a hab => Option.some.inj hab ▸ hb
    · exact .inl ⟨b, rfl, hb⟩

theorem outsideService_fits (i : Instr) (x : Target) (s : State) : (outsideService i x).Fits s := by
  unfold outsideService
  split
  · exact .forward _ _
  · exact .forward _ _
  · exact .forward _ _
  · exact .answer _

/-- Settles O29: the three meanings are the same error response. -/
theorem illAnswersIllegalFunction : Obligations.IllAnswersIllegalFunction := by
  rintro s a d i (rfl | rfl | rfl) <;> rfl

/-- Settles O30: the target of such an address is `outOfRange` for each of the five ops. -/
theorem outOfRangeAnswersIllegalAddress : Obligations.OutOfRangeAnswersIllegalAddress := by
  intro s a d i ha hi
  have hdac : ¬ a.toNat < s.cfg.dacSpan := by omega
  have haddr : translatedAddress i = some a := by rcases hi with rfl | rfl | rfl | rfl | rfl <;> rfl
  rw [exec_outside haddr hdac, translateAddress_outOfRange ha]
  rcases hi with rfl | rfl | rfl | rfl | rfl <;> rfl

/-- Settles O31: the temperature unit serves neither write. -/
theorem temperatureWriteAnswersIllegalAddress : Obligations.TemperatureWriteAnswersIllegalAddress := by
  intro s a d i n hn hlo hhi hi
  have haddr : translatedAddress i = some a := by rcases hi with rfl | rfl <;> rfl
  rw [exec_outside haddr (Nat.not_lt.2 hlo), translateAddress_temp hn hlo hhi]
  rcases hi with rfl | rfl <;> rfl

/-- Settles O32: each read is forwarded under its own op code. -/
theorem temperatureReadForwards : Obligations.TemperatureReadForwards := by
  intro s a d i op n hn hlo hhi hi
  have haddr : translatedAddress i = some a := by rcases hi with ⟨rfl, _⟩ | ⟨rfl, _⟩ | ⟨rfl, _⟩ <;> rfl
  rw [exec_outside haddr (Nat.not_lt.2 hlo), translateAddress_temp hn hlo hhi]
  rcases hi with ⟨rfl, rfl⟩ | ⟨rfl, rfl⟩ | ⟨rfl, rfl⟩ <;> rfl

/-! ### The words a request sends -/

theorem voltWord_eq_voltPattern {sub : Nat} (h : sub < 4) (v : Word16) :
    voltWord sub v = voltPattern (BitVec.ofNat 4 (sub + 1)) (v.extractLsb' 0 12) := by
  rw [voltWord_eq_fields (by omega), BitVec.append_def, BitVec.shiftLeftZeroExtend_eq]
  rfl

theorem sub_cases {sub : Nat} (h : sub < 4) : sub = 0 ∨ sub = 1 ∨ sub = 2 ∨ sub = 3 := by omega

theorem decodeSpi_voltWord (c : Config) {sub : Nat} (h : sub < 4) (v : Word16) :
    ∃ i, decodeSpi c (voltWord sub v) = .ok i := by
  rw [voltWord_eq_voltPattern h]
  rcases sub_cases h with rfl | rfl | rfl | rfl
  · exact ⟨.voltCh0 _, decodeSpi_of_encode rfl rfl⟩
  · exact ⟨.voltCh1 _, decodeSpi_of_encode rfl rfl⟩
  · exact ⟨.voltCh2 _, decodeSpi_of_encode rfl rfl⟩
  · exact ⟨.voltCh3 _, decodeSpi_of_encode rfl rfl⟩

theorem decodeSpi_rdreqWord (c : Config) {sub : Nat} (h : sub < 4) : ∃ i, decodeSpi c (rdreqWord sub) = .ok i := by
  rcases sub_cases h with rfl | rfl | rfl | rfl
  · exact ⟨.rdreqCh0, decodeSpi_of_encode rfl rfl⟩
  · exact ⟨.rdreqCh1, decodeSpi_of_encode rfl rfl⟩
  · exact ⟨.rdreqCh2, decodeSpi_of_encode rfl rfl⟩
  · exact ⟨.rdreqCh3, decodeSpi_of_encode rfl rfl⟩

theorem decodeSpi_nullWord (c : Config) : decodeSpi c nullWord = .ok .null := decodeSpi_of_encode rfl rfl

/-- A word with the fixed bits of `CTRL_INIT` is of a known kind, if not a control word then another (log 11). -/
theorem decodeSpi_of_fixedBits {c : Config} {w : Word16} (h : w &&& ctrlFixedMask = c.ctrlInit &&& ctrlFixedMask) :
    ∃ i, decodeSpi c w = .ok i := by
  unfold decodeSpi
  split
  case h_5 =>
    rw [if_pos h]
    split_ifs <;> exact ⟨_, rfl⟩
  all_goals exact ⟨_, rfl⟩

theorem decodeSpi_updateWindow (c : Config) (a d : Word16) :
    ∀ u ∈ (updateWindow a d).words, ∃ i, decodeSpi c u = .ok i := by
  intro u hu
  rw [List.eq_of_mem_singleton hu]
  exact decodeSpi_voltWord c (subOf_lt a) d

theorem decodeSpi_readWindow (c : Config) (a : Word16) : ∀ u ∈ (readWindow a).words, ∃ i, decodeSpi c u = .ok i := by
  intro u hu
  rw [List.eq_of_mem_singleton hu]
  exact decodeSpi_rdreqWord c (subOf_lt a)

/-- The words of a power set are of a known kind where its control word has the fixed bits. -/
theorem decodeSpi_powerWindow {c : Config} {a w : Word16} (h : w &&& ctrlFixedMask = c.ctrlInit &&& ctrlFixedMask) :
    ∀ u ∈ (powerWindow c a w).words, ∃ i, decodeSpi c u = .ok i := by
  intro u hu
  have hwords : u = w ∨ u = nullWord := by
    unfold powerWindow at hu
    split at hu <;> simp_all
  rcases hwords with rfl | rfl
  · exact decodeSpi_of_fixedBits h
  · exact ⟨_, decodeSpi_nullWord c⟩

/-! ### Every request that ends is served -/

theorem updateWindow_fits {s : State} (a d : Word16) (r : Response) (hj : chipSelOf a < s.cfg.numChips) :
    (Service.transact (updateWindow a d) (s.vcache.set a.toNat (clampVoltage d)) s.ccache r).Fits s :=
  .transact r hj List.length_set rfl fun hfixed => ⟨hfixed, decodeSpi_updateWindow s.cfg a d⟩

theorem readWindow_fits {s : State} (a : Word16) (r : Response) (hj : chipSelOf a < s.cfg.numChips) :
    (Service.transact (readWindow a) s.vcache s.ccache r).Fits s :=
  .transact r hj rfl rfl fun hfixed => ⟨hfixed, decodeSpi_readWindow s.cfg a⟩

theorem powerWindow_fits {s : State} {a w : Word16} (on : Bool) (r : Response) (hj : chipSelOf a < s.cfg.numChips)
    (hw : s.ccache[chipSelOf a]? = some w) :
    (Service.transact (powerWindow s.cfg a (withPower w (subOf a) on)) s.vcache
      (s.ccache.set (chipSelOf a) (withPower w (subOf a) on)) r).Fits s := by
  refine .transact r hj rfl List.length_set fun hfixed => ?_
  have hnew := fixedBits_coilWrite hfixed hw (subOf_lt a) on
  refine ⟨fun u hu => ?_, decodeSpi_powerWindow hnew⟩
  rcases List.mem_or_eq_of_mem_set hu with hold | rfl
  · exact hfixed u hold
  · exact hnew

/-- Every request that ends is one service, and the same one in both chip-select variants. -/
theorem exec_request {s t : State} {i : Instr} {w : ReqWord} (hi : encode s.cfg i = .req w) (h : exec i s = .next t) :
    ∃ f : Service, f.Fits s ∧ ∀ k l tr, exec i (s.onVariant k l tr) = .next (f.apply (s.onVariant k l tr)) := by
  rcases outside_or_dac i s.cfg with ⟨a, haddr, ha⟩ | hdac
  · exact ⟨_, outsideService_fits i (translateAddress s.cfg a) s, fun k l tr =>
      exec_outside (s := s.onVariant k l tr) haddr ha⟩
  cases i with
  | hrr a d =>
    obtain ⟨v, hv, _⟩ := execHrr_dac_ok (d := d) (hdac a rfl) h
    exact ⟨_, .answer ⟨.ok, voltResult v⟩, fun k l tr =>
      execHrr_dac (d := d) (s := s.onVariant k l tr) (hdac a rfl) hv⟩
  | hrw a d =>
    obtain ⟨u, hu, _⟩ := execHrw_dac_ok (hdac a rfl) h
    obtain ⟨hsel, ha, hj⟩ := updateVoltage_ok hu
    exact ⟨_, updateWindow_fits a d ⟨.ok, 0#16⟩ hj, fun k l tr =>
      execHrw_dac (s := s.onVariant k l tr) (hdac a rfl)
        (updateVoltage_window (s := s.onVariant k l tr) d hsel ha hj)⟩
  | irr a d =>
    obtain ⟨v, u, hu, _⟩ := execIrr_dac_ok (d := d) (hdac a rfl) h
    obtain ⟨hsel, hj⟩ := readVoltageApprox_ok hu
    exact ⟨_, readWindow_fits a ⟨.ok, voltResult (readback (Config.rxDraw s.draws))⟩ hj, fun k l tr => 
      execIrr_dac (d := d) (s := s.onVariant k l tr) (hdac a rfl)
        (readVoltageApprox_window (s := s.onVariant k l tr) hsel hj)⟩
  | cr a d =>
    obtain ⟨b, hb, _⟩ := execCr_dac_ok (d := d) (hdac a rfl) h
    exact ⟨_, .answer ⟨.ok, coilResult b⟩, fun k l tr =>
      execCr_dac (d := d) (s := s.onVariant k l tr) (hdac a rfl) hb⟩
  | cw a d =>
    obtain ⟨u, hu, _⟩ := execCw_dac_ok (hdac a rfl) h
    obtain ⟨hsel, hj, w, hw⟩ := setPower_ok hu
    exact ⟨_, powerWindow_fits (coilOn d) ⟨.ok, 0#16⟩ hj hw, fun k l tr =>
      execCw_dac (s := s.onVariant k l tr) (hdac a rfl) (setPower_window (s := s.onVariant k l tr) _ hsel hj hw)⟩
  | ill5 | ill6 | ill7 => exact ⟨_, .answer ⟨.illegalFunction, 0#16⟩, fun k l tr => rfl⟩
  | _ => cases hi

theorem exec_request_served {s t : State} {i : Instr} {w : ReqWord} (hi : encode s.cfg i = .req w)
    (h : exec i s = .next t) : ∃ f : Service, f.Fits s ∧ t = f.apply s := by
  obtain ⟨f, hf, hx⟩ := exec_request hi h
  exact ⟨f, hf, Host.Outcome.next.inj (h.symm.trans (hx s.cfg.cs s.lines s.trace))⟩

/-- Settles O40: every service answers once and ends the request. -/
theorem everyRequestAnswersOnce : Obligations.EveryRequestAnswersOnce := by
  intro s t w h
  obtain ⟨f, _, rfl⟩ := exec_request_served (encode_decodeReq s.cfg w) h
  exact ⟨f.apply_phase s, f.response s.draws, f.apply_responses s⟩

/-! ### In the DAC domain, from a state of the invariant -/

theorem vcache_of_dac {s : State} {a : Word16} (h : Inv s) (ha : a.toNat < s.cfg.dacSpan) :
    a.toNat < s.vcache.length := by
  rwa [h.vcacheLength]

theorem ccache_of_dac {s : State} {a : Word16} (h : Inv s) (ha : a.toNat < s.cfg.dacSpan) :
    ∃ w, s.ccache[chipSelOf a]? = some w := by
  have hj : chipSelOf a < s.ccache.length := by rw [h.ccacheLength]; exact chipSelOf_lt ha
  exact ⟨_, List.getElem?_eq_getElem hj⟩

theorem exec_hrw_of_inv {s : State} {a : Word16} (d : Word16) (h : Inv s) (hsel : s.sel = none)
    (ha : a.toNat < s.cfg.dacSpan) :
    exec (.hrw a d) s = .next (respond .ok 0#16
      ((updateWindow a d).after { s with vcache := s.vcache.set a.toNat (clampVoltage d) })) :=
  execHrw_dac ha (updateVoltage_window d hsel (vcache_of_dac h ha) (chipSelOf_lt ha))

theorem exec_hrr_of_inv {s : State} {a : Word16} (d : Word16) (h : Inv s) (ha : a.toNat < s.cfg.dacSpan) :
    ∃ v, s.vcache[a.toNat]? = some v ∧ exec (.hrr a d) s = .next (respond .ok (voltResult v) s) := by
  have hv := List.getElem?_eq_getElem (vcache_of_dac h ha)
  exact ⟨_, hv, execHrr_dac (d := d) ha (readVoltage_eq_ok.2 hv)⟩

theorem exec_irr_of_unselected {s : State} {a : Word16} (d : Word16) (hsel : s.sel = none)
    (ha : a.toNat < s.cfg.dacSpan) :
    exec (.irr a d) s =
      .next (respond .ok (voltResult (readback (Config.rxDraw s.draws))) ((readWindow a).after s)) :=
  execIrr_dac (d := d) ha (readVoltageApprox_window hsel (chipSelOf_lt ha))

theorem exec_cr_of_inv {s : State} {a : Word16} (d : Word16) (h : Inv s) (ha : a.toNat < s.cfg.dacSpan) :
    ∃ w, s.ccache[chipSelOf a]? = some w ∧
      exec (.cr a d) s = .next (respond .ok (coilResult (w.getLsbD (subOf a + 2))) s) := by
  obtain ⟨w, hw⟩ := ccache_of_dac h ha
  exact ⟨w, hw, execCr_dac (d := d) ha (getPower_eq hw)⟩

theorem exec_cw_of_unselected {s : State} {a w : Word16} (d : Word16) (hsel : s.sel = none)
    (ha : a.toNat < s.cfg.dacSpan) (hw : s.ccache[chipSelOf a]? = some w) :
    exec (.cw a d) s = .next (respond .ok 0#16
      ((powerWindow s.cfg a (withPower w (subOf a) (decide (d ≠ 0#16)))).after
        { s with ccache := s.ccache.set (chipSelOf a) (withPower w (subOf a) (decide (d ≠ 0#16))) })) := by
  rw [← coilOn_eq]
  exact execCw_dac ha (setPower_window _ hsel (chipSelOf_lt ha) hw)

/-- Settles O24: the update's window, whose only lasting change of the lines is `DEC_A`. -/
theorem hrwWritesShadowAndUpdatesChip : Obligations.HrwWritesShadowAndUpdatesChip := by
  intro s a d h hsel ha
  have hlines := driveAll_events_of_inv (x := updateWindow a d) h hsel (chipSelOf_lt ha) s.draws
  rw [exec_hrw_of_inv d h hsel ha]
  simp only [respond, Window.after, hlines]
  rfl

/-- Settles O25: `readVoltage` finds the entry, and the answer is zero-extended. -/
theorem hrrReturnsShadow : Obligations.HrrReturnsShadow := by
  intro s a d h ha
  obtain ⟨v, hv, hx⟩ := exec_hrr_of_inv d h ha
  exact ⟨v, hv, voltResult_toNat v, hx⟩

/-- Settles O26: the readback's window, and the value of its answer. -/
theorem irrReturnsAdvisoryReadback : Obligations.IrrReturnsAdvisoryReadback := by
  intro s a d h hsel ha
  have hlines := driveAll_events_of_inv (x := readWindow a) h hsel (chipSelOf_lt ha) s.draws
  rw [events_readWindow] at hlines
  refine ⟨?_, by rw [voltResult_toNat, readback_toNat]⟩
  rw [exec_irr_of_unselected d hsel ha]
  simp only [respond, Window.after, hlines, events_readWindow]
  rfl

theorem coilResult_eq (b : Bool) : coilResult b = if b then 1#16 else 0#16 := by cases b <;> rfl

/-- Settles O27: `getPower` finds the chip's word, and the answer is its bit. -/
theorem crReturnsPowerBit : Obligations.CrReturnsPowerBit := by
  intro s a d h ha
  obtain ⟨w, hw, hx⟩ := exec_cr_of_inv d h ha
  rw [coilResult_eq] at hx
  exact ⟨w, hw, hx⟩

/-- Settles O28: the power set's window, with one draw for each of its one or two words. -/
theorem cwWritesPowerBitAndControlsChip : Obligations.CwWritesPowerBitAndControlsChip := by
  intro s a d h hsel ha
  obtain ⟨w, hw⟩ := ccache_of_dac h ha
  have hlines := driveAll_events_of_inv
    (x := powerWindow s.cfg a (withPower w (subOf a) (decide (d ≠ 0#16)))) h hsel (chipSelOf_lt ha) s.draws
  rw [events_powerWindow] at hlines
  refine ⟨w, hw, ?_⟩
  rw [exec_cw_of_unselected d hsel ha hw]
  simp only [respond, Window.after, hlines, events_powerWindow, length_powerWindow]
  rfl

/-- From a state of the invariant with nothing selected every request ends (44_request_ops.md R209). -/
theorem exec_request_completes {s : State} {i : Instr} {w : ReqWord} (h : Inv s) (hsel : s.sel = none)
    (hi : encode s.cfg i = .req w) : ∃ t, exec i s = .next t := by
  rcases outside_or_dac i s.cfg with ⟨a, haddr, ha⟩ | hdac
  · exact ⟨_, exec_outside haddr ha⟩
  cases i with
  | hrr a d =>
    obtain ⟨v, _, hx⟩ := exec_hrr_of_inv d h (hdac a rfl)
    exact ⟨_, hx⟩
  | hrw a d => exact ⟨_, exec_hrw_of_inv d h hsel (hdac a rfl)⟩
  | irr a d => exact ⟨_, exec_irr_of_unselected d hsel (hdac a rfl)⟩
  | cr a d =>
    obtain ⟨w, _, hx⟩ := exec_cr_of_inv d h (hdac a rfl)
    exact ⟨_, hx⟩
  | cw a d =>
    obtain ⟨w, hw⟩ := ccache_of_dac h (hdac a rfl)
    exact ⟨_, exec_cw_of_unselected d hsel (hdac a rfl) hw⟩
  | ill5 | ill6 | ill7 => exact ⟨_, rfl⟩
  | _ => cases hi

/-- Settles O56: both variants run the same service, which differs between them in lines and chip-select events only. -/
theorem variantsAreLogicallyEqual : Obligations.VariantsAreLogicallyEqual := by
  intro s t w hs _ hsel ht
  obtain ⟨s', hs'⟩ := exec_request_completes hs hsel (encode_decodeReq s.cfg w)
  obtain ⟨f, _, hx⟩ := exec_request (encode_decodeReq s.cfg w) hs'
  have ht' : t = s.onVariant t.cfg.cs t.lines t.trace := ht
  have hrun : exec (decodeReq w) t = .next (f.apply t) := by
    have hx' := hx t.cfg.cs t.lines t.trace
    rwa [← ht'] at hx'
  have hdraws : t.draws = s.draws := by rw [ht]
  have hfinal : f.apply t = (f.apply s).onVariant t.cfg.cs (f.apply t).lines (f.apply t).trace := by
    have hf := f.apply_onVariant s t.cfg.cs t.lines t.trace
    rwa [← ht'] at hf
  refine ⟨f.apply s, f.apply t, _, _, hx s.cfg.cs s.lines s.trace, hrun, f.apply_trace s, f.apply_trace t, ?logical,
    ?same⟩
  case logical => rw [hdraws, f.logicalTrace_events]
  case same =>
    have hcfg : t.cfg = { (f.apply s).cfg with cs := t.cfg.cs } := by
      rw [f.apply_cfg]
      exact congrArg State.cfg ht
    rw [hcfg]
    exact hfinal

end Sys2Proof.Machine

/-! ## SPI command words (43_control_engine.md R168) -/

namespace Sys2Proof.Machine

/-- Settles O33: a command word is one transfer of its own word, and one is selected. -/
theorem commandWordTransfersItself : Obligations.CommandWordTransfersItself := by
  intro s i w j hi hsel
  rw [exec_of_command hi, xferOnly_of_selected w hsel]
  rfl

/-- Settles O34: a command word is one transfer, and none is selected. -/
theorem commandWordNeedsSelectedChip : Obligations.CommandWordNeedsSelectedChip := by
  intro s i w hi hsel
  rw [exec_of_command hi, xferOnly_of_unselected w hsel, outcome_error]

end Sys2Proof.Machine

/-! ## The reset state (70_reset_and_hazards.md R330 to R334) -/

namespace Sys2Proof.Machine

/-- A control word whose power bits are those of `CTRL_INIT` reads off on every sub-channel (10_state.md R25, D7). -/
theorem getPower_of_ctrlInit {s : State} {a : Word16} (hv : s.cfg.valid = true)
    (hw : s.ccache[chipSelOf a]? = some s.cfg.ctrlInit) : getPower a s = .ok false := by
  obtain ⟨_, _, hinit, _⟩ := Config.valid_iff.1 hv
  have hzero : s.cfg.ctrlInit.extractLsb' 2 4 = 0#4 := eq_of_beq hinit
  have hbit : (s.cfg.ctrlInit.extractLsb' 2 4).getLsbD (subOf a) = false := by rw [hzero, BitVec.getLsbD_zero]
  rw [BitVec.getLsbD_extractLsb', decide_eq_true (subOf_lt a), Bool.true_and, Nat.add_comm] at hbit
  rw [getPower_eq hw, hbit]

/-- Settles O47: every entry is `CTRL_INIT`, whose power bits are 0 in a valid configuration. -/
theorem resetTurnsEveryCoilOff : Obligations.ResetTurnsEveryCoilOff := by
  intro c hv
  have hentry : ∀ j, j < c.numChips → (State.resetWith c).ccache[j]? = some c.ctrlInit :=
    fun j hj => List.getElem?_replicate_of_lt hj
  exact ⟨hentry, fun a ha => getPower_of_ctrlInit (s := State.resetWith c) hv (hentry _ (chipSelOf_lt ha))⟩

/-- The idle lines are those of nothing selected, with `DEC_A` at 0 (70_reset_and_hazards.md R333). -/
theorem idle_eq_selecting (c : Config) : Lines.idle c = Lines.selecting c none 0 := by
  cases hc : c.cs <;> simp [Lines.idle, Lines.selecting, hc]

theorem decAOk_zero (c : Config) : decAOk c none 0 := by
  unfold decAOk
  split
  · rfl
  · exact ⟨Nat.two_pow_pos _, nofun⟩

theorem resetWith_inv {c : Config} (hv : c.valid = true) : Inv (State.resetWith c) where
  cfgValid := hv
  vcacheLength := List.length_replicate
  ccacheLength := List.length_replicate
  ccacheFixed := fun _ hw => by rw [List.eq_of_mem_replicate hw]; rfl
  linesAgree := idle_eq_selecting c
  decAInRange := decAOk_zero c
  sclkAtIdle := rfl
  selInRange := nofun
  idleNothingPending := fun _ => ⟨rfl, rfl⟩
  seqRuns := rfl

/-- RST leaves the invariant, whatever state it finds in a valid configuration. -/
theorem applyReset_inv {s : State} (hv : s.cfg.valid = true) : Inv (applyReset s) :=
  { resetWith_inv hv with }

/-- Settles O49: CFG-A is one of the valid configurations. -/
theorem resetMeetsInvariant : Obligations.ResetMeetsInvariant :=
  ⟨fun _ => resetWith_inv, resetWith_inv (by decide)⟩

end Sys2Proof.Machine

/-! ## What one step does (00_scope.md R13, log 10) -/

namespace Sys2Proof.Machine

/-! ### One equation for each state a step can meet -/

theorem step_of_invalid {s : State} (hv : s.cfg.valid = false) : step s = .refused .badConfiguration := by
  simp [step_eq, hv]

section
variable {s : State} (hv : s.cfg.valid = true)
include hv

theorem step_of_no_input (hp : s.phase = .idle) (hin : s.inbox = []) : step s = .next s := by
  simp [step_eq, hv, hp, hin]

theorem step_of_rst {rest : List Input} (hp : s.phase = .idle) (hin : s.inbox = .rst :: rest) :
    step s = .next (applyReset { s with inbox := rest }) := by
  simp [step_eq, hv, hp, hin]

theorem step_of_request {w : ReqWord} {rest : List Input} (hp : s.phase = .idle) (hin : s.inbox = .request w :: rest) :
    step s = exec (decodeReq w) { s with inbox := rest, phase := .busy } := by
  simp [step_eq, hv, hp, hin]

theorem step_of_finish (hp : s.phase = .busy) (hseq : s.seq = []) : step s = .next { s with phase := .idle } := by
  simp [step_eq, hv, hp, hseq]

theorem step_of_unknown {w : Word16} {e : DecodeError} {rest : List SeqOp} (hp : s.phase = .busy)
    (hseq : s.seq = .send w :: rest) (hw : decodeSpi s.cfg w = .error e) :
    step s = .refused .unknownCommandWord := by
  simp [step_eq, hv, hp, hseq, hw]

theorem step_of_command {w : Word16} {i : Instr} {rest : List SeqOp} (hp : s.phase = .busy)
    (hseq : s.seq = .send w :: rest) (hw : decodeSpi s.cfg w = .ok i) : step s = exec i { s with seq := rest } := by
  simp [step_eq, hv, hp, hseq, hw]

/-- The next command word of a transaction is transferred. -/
theorem step_of_send {w : Word16} {i : Instr} {rest : List SeqOp} (hp : s.phase = .busy)
    (hseq : s.seq = .send w :: rest) (hw : decodeSpi s.cfg w = .ok i) :
    step s = outcome (xferOnly w { s with seq := rest }) := by
  obtain ⟨hi, _⟩ := encode_of_decodeSpi hw
  rw [step_of_command hv hp hseq hw]
  exact exec_of_command (s := { s with seq := rest }) hi

theorem step_of_deselect {rest : List SeqOp} (hp : s.phase = .busy) (hseq : s.seq = .deselect :: rest) :
    step s = outcome (deselect { s with seq := rest }) := by
  simp [step_eq, hv, hp, hseq]

theorem step_of_strobe {rest : List SeqOp} (hp : s.phase = .busy) (hseq : s.seq = .strobe :: rest) :
    step s = outcome (strobe { s with seq := rest }) := by
  simp [step_eq, hv, hp, hseq]

end

/-- Settles O41 by the step's equation for a request. -/
theorem stepRunsNextRequest : Obligations.StepRunsNextRequest := fun _ _ _ hv => step_of_request hv

/-- Settles O42 by the step's equation for a command word. -/
theorem stepRunsNextCommandWord : Obligations.StepRunsNextCommandWord := fun _ _ _ _ hv => step_of_command hv

/-- Settles O44 by the step's equation for an empty port. -/
theorem nothingHappensBetweenRequests : Obligations.NothingHappensBetweenRequests := fun _ => step_of_no_input

/-- Settles O48: the step is `applyReset`, whose fields are the reset state's. -/
theorem resetInputIdlesLinesWithoutEvents : Obligations.ResetInputIdlesLinesWithoutEvents := fun _ _ hv hp hin =>
  ⟨_, step_of_rst hv hp hin, rfl, rfl, rfl, rfl, rfl, rfl, rfl, rfl, rfl, rfl⟩

/-- In a valid configuration no step is refused for it: what a step runs has other refusals or none. -/
theorem step_ne_badConfiguration {s : State} (hv : s.cfg.valid = true) : step s ≠ .refused .badConfiguration := by
  cases hp : s.phase with
  | idle =>
    rcases hin : s.inbox with _ | ⟨_ | _, rest⟩
    · rw [step_of_no_input hv hp hin]; nofun
    · rw [step_of_request hv hp hin]; exact exec_ne_refused _ _ _
    · rw [step_of_rst hv hp hin]; nofun
  | busy =>
    rcases hseq : s.seq with _ | ⟨w | _ | _, rest⟩
    · rw [step_of_finish hv hp hseq]; nofun
    · cases hw : decodeSpi s.cfg w with
      | ok i => rw [step_of_send hv hp hseq hw]; exact outcome_ne_refused _ _
      | error e => rw [step_of_unknown hv hp hseq hw]; nofun
    · rw [step_of_deselect hv hp hseq]; exact outcome_ne_refused _ _
    · rw [step_of_strobe hv hp hseq]; exact outcome_ne_refused _ _

theorem step_eq_badConfiguration_iff {s : State} : step s = .refused .badConfiguration ↔ ¬ s.cfg.valid = true :=
  ⟨fun h hv => step_ne_badConfiguration hv h, fun hv => step_of_invalid (Bool.eq_false_iff.2 hv)⟩

/-- Settles O43: the check refuses exactly the invalid configurations, and its clauses are the constraints. -/
theorem badConfigurationIsRefused : Obligations.BadConfigurationIsRefused := by
  refine ⟨fun s => step_of_invalid, fun s => ?_⟩
  have hinit : s.cfg.ctrlInitOk = true ↔ s.cfg.ctrlInit.extractLsb' 2 4 = 0#4 := beq_iff_eq
  rw [step_eq_badConfiguration_iff, Config.valid_iff, Config.chipsOk_iff, Config.topologyOk_iff, hinit, Config.csOk_iff,
    Config.tempOk_iff, Config.dacSpan]
  simp only [and_assoc]

/-! ### What a step that answers has done -/

/-- All a step can do: the events it adds and the state it answers. -/
inductive StepCase (s : State) : List Event → State → Prop
  | nothing (hp : s.phase = .idle) (hin : s.inbox = []) : StepCase s [] s
  | reset {rest : List Input} (hp : s.phase = .idle) (hin : s.inbox = .rst :: rest) :
      StepCase s [] (applyReset { s with inbox := rest })
  | request {w : ReqWord} {rest : List Input} {f : Service} (hp : s.phase = .idle) (hin : s.inbox = .request w :: rest)
      (hf : f.Fits { s with inbox := rest, phase := .busy }) :
      StepCase s (f.events s.cfg s.draws) (f.apply { s with inbox := rest, phase := .busy })
  | send {w : Word16} {i : Instr} {j : Nat} {rest : List SeqOp} (hp : s.phase = .busy)
      (hseq : s.seq = .send w :: rest) (hsel : s.sel = some j) (hw : decodeSpi s.cfg w = .ok i) :
      StepCase s [.xfer w (Config.rxDraw s.draws)] (transferred w (Config.rxDraw s.draws) { s with seq := rest })
  | deselect {j : Nat} {rest : List SeqOp} (hp : s.phase = .busy) (hseq : s.seq = .deselect :: rest)
      (hsel : s.sel = some j) : StepCase s (deselectEvents s.cfg j) (closeWindow j { s with seq := rest })
  | strobe {rest : List SeqOp} (hp : s.phase = .busy) (hseq : s.seq = .strobe :: rest) (hsel : s.sel = none) :
      StepCase s strobeEvents (emitAll strobeEvents { s with seq := rest })
  | finish (hp : s.phase = .busy) (hseq : s.seq = []) : StepCase s [] { s with phase := .idle }

theorem step_cases {s t : State} (h : step s = .next t) : ∃ es, StepCase s es t := by
  cases hv : s.cfg.valid with
  | false => rw [step_of_invalid hv] at h; cases h
  | true =>
    cases hp : s.phase with
    | idle =>
      rcases hin : s.inbox with _ | ⟨w | _, rest⟩
      · rw [step_of_no_input hv hp hin] at h
        cases h
        exact ⟨_, .nothing hp hin⟩
      · rw [step_of_request hv hp hin] at h
        obtain ⟨f, hf, rfl⟩ := exec_request_served (encode_decodeReq _ w) h
        exact ⟨_, .request hp hin hf⟩
      · rw [step_of_rst hv hp hin] at h
        cases h
        exact ⟨_, .reset hp hin⟩
    | busy =>
      rcases hseq : s.seq with _ | ⟨w | _ | _, rest⟩
      · rw [step_of_finish hv hp hseq] at h
        cases h
        exact ⟨_, .finish hp hseq⟩
      · cases hw : decodeSpi s.cfg w with
        | error e => rw [step_of_unknown hv hp hseq hw] at h; cases h
        | ok i =>
          rw [step_of_send hv hp hseq hw] at h
          obtain ⟨hsel, rfl⟩ := xferOnly_eq_ok.1 (outcome_eq_next.1 h)
          obtain ⟨j, hj⟩ := Option.ne_none_iff_exists'.1 hsel
          exact ⟨_, .send hp hseq hj hw⟩
      · rw [step_of_deselect hv hp hseq] at h
        obtain ⟨j, hj, rfl⟩ := deselect_eq_ok.1 (outcome_eq_next.1 h)
        exact ⟨_, .deselect hp hseq hj⟩
      · rw [step_of_strobe hv hp hseq] at h
        obtain ⟨hsel, rfl⟩ := strobe_eq_ok.1 (outcome_eq_next.1 h)
        exact ⟨_, .strobe hp hseq hsel⟩

theorem StepCase.trace_eq {s t : State} {es : List Event} (h : StepCase s es t) : t.trace = s.trace ++ es := by
  cases h with
  | nothing | reset | finish => exact (List.append_nil s.trace).symm
  | request => exact Service.apply_trace _ _
  | send | deselect | strobe => rfl

theorem StepCase.cfg_eq {s t : State} {es : List Event} (h : StepCase s es t) : t.cfg = s.cfg := by
  cases h with
  | request => exact Service.apply_cfg _ _
  | _ => rfl

/-- Settles O45: no case of a step writes `cfg`. -/
theorem noStepWritesConfiguration : Obligations.NoStepWritesConfiguration := by
  intro s t h
  obtain ⟨es, hes⟩ := step_cases h
  exact hes.cfg_eq

end Sys2Proof.Machine

/-! ## What every step keeps

Each statement about all steps is one case per `StepCase`, and for a request one case per kind of `Service`. -/

namespace Sys2Proof.Machine

/-! ### Transactions in progress -/

theorem seqOk_nil {c : Config} {sel : Option Nat} : seqOk c sel [] = true ↔ sel = none := by
  simp [seqOk]

theorem seqOk_send {c : Config} {sel : Option Nat} {w : Word16} {rest : List SeqOp} :
    seqOk c sel (.send w :: rest) = true ↔
      (∃ j, sel = some j) ∧ (∃ i, decodeSpi c w = .ok i) ∧ seqOk c sel rest = true := by
  cases sel with
  | none => simp [seqOk]
  | some j => cases hw : decodeSpi c w <;> simp [seqOk, hw, Except.isOk, Except.toBool]

theorem seqOk_deselect {c : Config} {sel : Option Nat} {rest : List SeqOp} :
    seqOk c sel (.deselect :: rest) = true ↔ (∃ j, sel = some j) ∧ seqOk c none rest = true := by
  cases sel <;> simp [seqOk]

theorem seqOk_strobe {c : Config} {sel : Option Nat} {rest : List SeqOp} :
    seqOk c sel (.strobe :: rest) = true ↔ sel = none ∧ seqOk c none rest = true := by
  cases sel <;> simp [seqOk]

/-- A request is accepted into a state of the invariant. -/
theorem Inv.accepted {s : State} (h : Inv s) (rest : List Input) : Inv { s with inbox := rest, phase := .busy } :=
  { h with idleNothingPending := nofun }

/-- Settles O51: a request completes, and what is left of a transaction can run its next operation. -/
theorem everyStepCompletes : Obligations.EveryStepCompletes := by
  intro s h
  have hv := h.cfgValid
  have hruns := h.seqRuns
  cases hp : s.phase with
  | idle =>
    rcases hin : s.inbox with _ | ⟨w | _, rest⟩
    · exact ⟨_, step_of_no_input hv hp hin⟩
    · obtain ⟨hsel, _⟩ := h.idleNothingPending hp
      rw [step_of_request hv hp hin]
      exact exec_request_completes (h.accepted rest) hsel (encode_decodeReq s.cfg w)
    · exact ⟨_, step_of_rst hv hp hin⟩
  | busy =>
    rcases hseq : s.seq with _ | ⟨w | _ | _, rest⟩ <;> rw [hseq] at hruns
    · exact ⟨_, step_of_finish hv hp hseq⟩
    · obtain ⟨⟨j, hj⟩, ⟨i, hw⟩, _⟩ := seqOk_send.1 hruns
      rw [step_of_send hv hp hseq hw, xferOnly_of_selected (s := { s with seq := rest }) w hj]
      exact ⟨_, rfl⟩
    · obtain ⟨⟨j, hj⟩, _⟩ := seqOk_deselect.1 hruns
      rw [step_of_deselect hv hp hseq, deselect_of_selected (s := { s with seq := rest }) hj]
      exact ⟨_, rfl⟩
    · obtain ⟨hsel, _⟩ := seqOk_strobe.1 hruns
      rw [step_of_strobe hv hp hseq, strobe_of_idle (s := { s with seq := rest }) hsel]
      exact ⟨_, rfl⟩

/-! ### The invariant -/

theorem Inv.responded {s : State} (h : Inv s) (hsel : s.sel = none) (hseq : s.seq = []) (st : Status) (rd : Word16) :
    Inv (respond st rd s) :=
  { h with idleNothingPending := fun _ => ⟨hsel, hseq⟩ }

theorem Service.apply_inv {s : State} {f : Service} (h : Inv s) (hsel : s.sel = none) (hseq : s.seq = [])
    (hf : f.Fits s) : Inv (f.apply s) := by
  cases hf with
  | answer r => exact h.responded hsel hseq _ _
  | forward op off =>
    have hcalled : Inv { emit (.tempCall op off (Config.tempStatus s.draws) (Config.tempData s.draws)) s with
        draws := s.draws + 1 } := { h with }
    exact hcalled.responded hsel hseq _ _
  | transact r hchip hv hcc hfixed =>
    obtain ⟨hfix, _⟩ := hfixed h.ccacheFixed
    exact (Window.after_inv (h.withShadows hv hcc hfix) hsel hchip).responded hsel hseq _ _

theorem StepCase.inv {s t : State} {es : List Event} (h : Inv s) (hes : StepCase s es t) : Inv t := by
  have hruns := h.seqRuns
  cases hes with
  | nothing => exact h
  | reset => exact applyReset_inv h.cfgValid
  | @request w rest f hp hin hf =>
    obtain ⟨hsel, hseq⟩ := h.idleNothingPending hp
    exact Service.apply_inv (h.accepted rest) hsel hseq hf
  | send hp hseq hsel hw =>
    rw [hseq] at hruns
    obtain ⟨_, _, hrest⟩ := seqOk_send.1 hruns
    exact { h with
      sclkAtIdle := rfl
      idleNothingPending := fun hidle => absurd (hp.symm.trans hidle) nofun
      seqRuns := hrest }
  | @deselect j rest hp hseq hsel =>
    rw [hseq] at hruns
    obtain ⟨_, hrest⟩ := seqOk_deselect.1 hruns
    have hd := decAOk_none h.decAInRange
    have hl := closeWindow_lines_of_inv h hsel
    have hdec : (closeWindow j s).lines.decA = s.lines.decA := by rw [hl, selecting_decA hd]
    exact { h with
      linesAgree := hl.trans (by rw [← hdec]; rfl)
      decAInRange := hdec ▸ hd
      selInRange := nofun
      idleNothingPending := fun hidle => absurd (hp.symm.trans hidle) nofun
      seqRuns := hrest }
  | @strobe rest hp hseq hsel =>
    rw [hseq] at hruns
    obtain ⟨_, hrest⟩ := seqOk_strobe.1 hruns
    have hl : driveAll s.lines strobeEvents = s.lines := by rw [h.linesAgree, driveAll_strobeEvents]
    exact { h with
      linesAgree := (hl.trans h.linesAgree).trans (by rw [emitAll_lines, hl]; rfl)
      decAInRange := by rw [emitAll_lines, hl]; exact h.decAInRange
      idleNothingPending := fun hidle => absurd (hp.symm.trans hidle) nofun
      seqRuns := hsel ▸ hrest }
  | finish hp hseq =>
    rw [hseq] at hruns
    exact { h with idleNothingPending := fun _ => ⟨seqOk_nil.1 hruns, hseq⟩ }

/-- Settles O50, case by case of what the step did. -/
theorem everyStepKeepsInvariant : Obligations.EveryStepKeepsInvariant := by
  intro s t h hstep
  obtain ⟨es, hes⟩ := step_cases hstep
  exact hes.inv h

/-! ### The bus rules -/

theorem Service.busSafe_events {s : State} {f : Service} (h : Inv s) (hsel : s.sel = none) (hf : f.Fits s) :
    busSafe s.cfg s.lines (f.events s.cfg s.draws) = true := by
  rw [lines_of_unselected h hsel]
  cases hf with
  | answer => rfl
  | forward => simp [Service.events, busSafe, eventAllowed, windowOpen_none, selecting_ldacN]
  | transact r hchip => exact Machine.busSafe_events h.cfgValid hchip _ _

theorem StepCase.busSafe {s t : State} {es : List Event} (h : Inv s) (hes : StepCase s es t) :
    busSafe s.cfg s.lines es = true := by
  cases hes with
  | nothing | reset | finish => rfl
  | @request w rest f hp hin hf =>
    obtain ⟨hsel, _⟩ := h.idleNothingPending hp
    have hsafe := Service.busSafe_events (h.accepted rest) hsel hf
    exact hsafe
  | send hp hseq hsel hw =>
    rw [h.linesAgree, hsel, Machine.busSafe, eventAllowed_xfer h.cfgValid (h.selInRange _ hsel)]
    rfl
  | deselect => exact busSafe_deselectEvents _ _ _
  | strobe hp hseq hsel =>
    rw [lines_of_unselected h hsel]
    exact busSafe_strobeEvents _ _

/-- The lines move only by the step's events, or by RST, which has none. -/
theorem StepCase.lines_eq {s t : State} {es : List Event} (hes : StepCase s es t) :
    t.lines = driveAll s.lines es ∨ (s.phase = .idle ∧ ∃ rest, s.inbox = .rst :: rest ∧ es = []) := by
  cases hes with
  | reset hp hin => exact .inr ⟨hp, _, hin, rfl⟩
  | request => exact .inl (Service.apply_lines _ _)
  | nothing | send | deselect | strobe | finish => exact .inl rfl

/-- Settles O52 by the three lemmas above. -/
theorem everyStepKeepsBusRules : Obligations.EveryStepKeepsBusRules := by
  intro s t h hstep
  obtain ⟨es, hes⟩ := step_cases hstep
  exact ⟨es, hes.trace_eq, hes.busSafe h, hes.lines_eq⟩

/-! ### The words on the bus -/

theorem Service.word_known {s : State} {f : Service} (h : Inv s) (hf : f.Fits s) {tx rx : Word16}
    (hmem : Event.xfer tx rx ∈ f.events s.cfg s.draws) : ∃ i, decodeSpi s.cfg tx = .ok i := by
  cases hf with
  | answer => cases hmem
  | forward => exact absurd (List.eq_of_mem_singleton hmem) nofun
  | transact r hchip hv hcc hfixed =>
    obtain ⟨_, hwords⟩ := hfixed h.ccacheFixed
    exact hwords tx (word_of_mem_events hmem)

theorem not_xfer_mem_of_logicalTrace {es : List Event} (h : logicalTrace es = []) (tx rx : Word16) :
    Event.xfer tx rx ∉ es := by
  rw [← xfer_mem_logicalTrace, h]
  nofun

theorem StepCase.word_known {s t : State} {es : List Event} (h : Inv s) (hes : StepCase s es t) {tx rx : Word16}
    (hmem : Event.xfer tx rx ∈ es) : ∃ i, decodeSpi s.cfg tx = .ok i := by
  cases hes with
  | nothing | reset | finish => cases hmem
  | request hp hin hf => exact Service.word_known (h.accepted _) hf hmem
  | send hp hseq hsel hw =>
    cases List.eq_of_mem_singleton hmem
    exact ⟨_, hw⟩
  | deselect => exact absurd hmem (not_xfer_mem_of_logicalTrace (logicalTrace_deselectEvents _ _) tx rx)
  | strobe => simp [strobeEvents] at hmem

/-- Settles O35: the added events are the step's, and its words decode. -/
theorem everyWordSentIsOfAKnownKind : Obligations.EveryWordSentIsOfAKnownKind := by
  intro s t es h hstep htrace tx rx hmem
  obtain ⟨fs, hfs⟩ := step_cases hstep
  have hsame : es = fs := List.append_cancel_left (htrace.symm.trans hfs.trace_eq)
  exact hfs.word_known h (hsame ▸ hmem)

end Sys2Proof.Machine

/-! ## Who accesses CCACHE (10_state.md R22 to R26)

As for VCACHE: noninterference first, and from it that no instruction but CW writes CCACHE. -/

namespace Sys2Proof.Machine

@[simp] theorem coilResult_toNat (b : Bool) : (coilResult b).toNat = b.toNat := by cases b <;> rfl

theorem exec_outside_dac_replaceCcache {i : Instr} {a : Word16} {s t : State} (cs : List Word16)
    (hi : translatedAddress i = some a) (ha : ¬ a.toNat < s.cfg.dacSpan) (h : exec i s = .next t) :
    exec i { s with ccache := cs } = .next { t with ccache := cs } := by
  obtain ⟨f, hf, hx⟩ := exec_outside_dac hi ha
  cases (hx s rfl).symm.trans h
  rw [hx { s with ccache := cs } rfl]
  rcases hf with rfl | ⟨op, off, rfl⟩ <;> rfl

/-- An instruction other than CR and CW in the DAC domain neither reads nor writes CCACHE. -/
theorem exec_replaceCcache {i : Instr} {s t : State} (cs : List Word16)
    (hr : ∀ a d, i = .cr a d → ¬ a.toNat < s.cfg.dacSpan) (hw : ∀ a d, i = .cw a d → ¬ a.toNat < s.cfg.dacSpan)
    (h : exec i s = .next t) : exec i { s with ccache := cs } = .next { t with ccache := cs } := by
  rcases outside_or_dac i s.cfg with ⟨a, haddr, ha⟩ | hdac
  · exact exec_outside_dac_replaceCcache cs haddr ha h
  cases i with
  | hrr a d =>
    obtain ⟨v, hv, rfl⟩ := execHrr_dac_ok (d := d) (hdac a rfl) h
    exact execHrr_dac (d := d) (s := { s with ccache := cs }) (hdac a rfl) hv
  | hrw a d =>
    obtain ⟨u, hu, rfl⟩ := execHrw_dac_ok (hdac a rfl) h
    obtain ⟨hsel, ha, hj⟩ := updateVoltage_ok hu
    cases hu.symm.trans (updateVoltage_window d hsel ha hj)
    exact execHrw_dac (s := { s with ccache := cs }) (hdac a rfl)
      (updateVoltage_window (s := { s with ccache := cs }) d hsel ha hj)
  | irr a d =>
    obtain ⟨v, u, hu, rfl⟩ := execIrr_dac_ok (d := d) (hdac a rfl) h
    obtain ⟨hsel, hj⟩ := readVoltageApprox_ok hu
    cases hu.symm.trans (readVoltageApprox_window hsel hj)
    exact execIrr_dac (d := d) (s := { s with ccache := cs }) (hdac a rfl)
      (readVoltageApprox_window (s := { s with ccache := cs }) hsel hj)
  | cr a d => exact absurd (hdac a rfl) (hr a d rfl)
  | cw a d => exact absurd (hdac a rfl) (hw a d rfl)
  | ill5 | ill6 | ill7 => cases h; rfl
  | _ =>
    rw [exec_of_command rfl] at h ⊢
    obtain ⟨hsel, rfl⟩ := xferOnly_eq_ok.1 (outcome_eq_next.1 h)
    exact outcome_eq_next.2 (xferOnly_eq_ok.2 ⟨hsel, rfl⟩)

/-- An instruction other than CW in the DAC domain leaves CCACHE as it is. -/
theorem exec_ccache_of_not_cw {i : Instr} {s t : State} (hw : ∀ a d, i = .cw a d → ¬ a.toNat < s.cfg.dacSpan)
    (h : exec i s = .next t) : t.ccache = s.ccache := by
  by_cases hr : ∃ a d, i = .cr a d ∧ a.toNat < s.cfg.dacSpan
  · obtain ⟨a, d, rfl, ha⟩ := hr
    obtain ⟨_, _, rfl⟩ := execCr_dac_ok (d := d) ha h
    rfl
  · have hsame := exec_replaceCcache s.ccache (fun a d hi ha => hr ⟨a, d, hi, ha⟩) hw h
    have ht : t = { t with ccache := s.ccache } := Host.Outcome.next.inj (h.symm.trans hsame)
    rw [ht]

theorem exec_ccache_length {i : Instr} {s t : State} (h : exec i s = .next t) : t.ccache.length = s.ccache.length := by
  by_cases hw : ∃ a d, i = .cw a d ∧ a.toNat < s.cfg.dacSpan
  · obtain ⟨a, d, rfl, ha⟩ := hw
    obtain ⟨u, hu, rfl⟩ := execCw_dac_ok ha h
    obtain ⟨old, _, hcc⟩ := setPower_ccache hu
    rw [respond_ccache, hcc, List.length_set]
  · rw [exec_ccache_of_not_cw (fun a d hi ha => hw ⟨a, d, hi, ha⟩) h]

/-- Settles O38: writers and readers of CCACHE by noninterference, the two accesses through `setPower` and
`getPower`. -/
theorem controlShadowAccess : Obligations.ControlShadowAccess := by
  refine ⟨fun s t i h hne => ?writes, fun s t i cs hno hcs h => ?reads, fun s t a d ha h => ?cw, fun s t a d ha h => ?cr,
    fun s t i h => exec_ccache_length h⟩
  case writes =>
    by_contra hw
    exact hne (exec_ccache_of_not_cw (fun a d hi ha => hw ⟨a, d, hi, ha⟩) h)
  case reads =>
    exact ⟨cs, exec_replaceCcache cs (fun a d hi ha => hno ⟨a, d, .inr hi, ha⟩)
      (fun a d hi ha => hno ⟨a, d, .inl hi, ha⟩) h⟩
  case cw =>
    obtain ⟨u, hu, rfl⟩ := execCw_dac_ok ha h
    obtain ⟨_, _, hset⟩ := cacheControlOverwrites
    obtain ⟨old, new, hold, hnew, hbits, hothers⟩ := hset s u a (coilOn d) hu
    exact ⟨coilOn d, u, old, new, hu, rfl, hold, hnew, hbits, hothers⟩
  case cr =>
    obtain ⟨b, hb, rfl⟩ := execCr_dac_ok (d := d) ha h
    exact ⟨b, ⟨.ok, coilResult b⟩, hb, rfl, coilResult_toNat b, rfl, rfl⟩

/-! ### One coil at a time -/

theorem getPower_congr {s t : State} {a : Word16} (h : t.ccache[chipSelOf a]? = s.ccache[chipSelOf a]?) :
    getPower a t = getPower a s := by
  rw [getPower, getPower, readControlBit, readControlBit, h]

/-- A power set moves its own coil and no other, also not of the same chip (42_register_cache.md R145). -/
theorem getPower_setPower {s t : State} {a : Word16} {on : Bool} (h : setPower a on s = .ok t) (b : Word16) :
    getPower b t = if b = a then .ok on else getPower b s := by
  obtain ⟨old, hold, hcc⟩ := setPower_ccache h
  obtain ⟨hlt, _⟩ := List.getElem?_eq_some_iff.1 hold
  by_cases hchip : chipSelOf b = chipSelOf a
  · have hnew : t.ccache[chipSelOf b]? = some (withPower old (subOf a) on) := by
      rw [hchip, hcc, List.getElem?_set_self hlt]
    rw [getPower_eq hnew, getPower_eq (hchip ▸ hold), getLsbD_withPower (subOf_lt a)]
    by_cases hsub : subOf b = subOf a
    · rw [if_pos (by rw [hsub]), if_pos (eq_of_chipSel_sub hchip hsub)]
    · rw [if_neg fun h => hsub (Nat.add_right_cancel h), if_neg fun hba => hsub (congrArg subOf hba)]
  · have hkeep : t.ccache[chipSelOf b]? = s.ccache[chipSelOf b]? := by
      rw [hcc, List.getElem?_set_ne (Ne.symm hchip)]
    rw [getPower_congr hkeep, if_neg fun hba => hchip (congrArg chipSelOf hba)]

/-- After CW in the DAC domain the coils are as `setPower` leaves them; the operand is `wdata ≠ 0` (30_encoding.md R81). -/
theorem getPower_exec_cw {s t : State} {a d : Word16} (ha : a.toNat < s.cfg.dacSpan) (h : exec (.cw a d) s = .next t)
    (b : Word16) : getPower b t = if b = a then .ok (decide (d ≠ 0#16)) else getPower b s := by
  obtain ⟨u, hu, rfl⟩ := execCw_dac_ok ha h
  rw [← coilOn_eq, ← getPower_setPower hu b]
  exact getPower_congr rfl

/-- Settles O39 by `getPower_exec_cw`. -/
theorem coilWriteChangesOneCoil : Obligations.CoilWriteChangesOneCoil :=
  fun _ _ _ b _ _ ha _ h => getPower_exec_cw ha h b

end Sys2Proof.Machine

/-! ## Runs over an input stream (20_memory.md section 3)

`run_serves` packages the induction over the inputs: what one step does to a relation between the stream read so far and
the two states carries over to the whole run. -/

namespace Sys2Proof.Machine

theorem run_succ {s u : State} (h : step s = .next u) (k : Nat) :
    Host.Core.run Sys2Proof.core (k + 1) s = Host.Core.run Sys2Proof.core k u := by
  have hcore : Sys2Proof.core.step s = .next u := h
  simp only [Host.Core.run, hcore]

/-- A step between requests takes one input and ends between requests again. -/
theorem step_takes_input {s u : State} {x : Input} {rest : List Input} (hp : s.phase = .idle)
    (hin : s.inbox = x :: rest) (h : step s = .next u) : u.phase = .idle ∧ u.inbox = rest := by
  obtain ⟨es, hes⟩ := step_cases h
  cases hes with
  | nothing hp' hnil => exact absurd (hin.symm.trans hnil) nofun
  | reset hp' hin' =>
    cases hin.symm.trans hin'
    exact ⟨rfl, rfl⟩
  | request hp' hin' hf =>
    cases hin.symm.trans hin'
    exact ⟨Service.apply_phase _ _, Service.apply_inbox _ _⟩
  | send hbusy | deselect hbusy | strobe hbusy | finish hbusy => exact absurd (hp.symm.trans hbusy) nofun

/-- A run over all inputs serves them, and relates its two states by whatever its steps do. -/
theorem run_serves (P : List Input → State → State → Prop) (hnil : ∀ s, P [] s s)
    (hcons : ∀ {x rest s u t}, Inv s → s.phase = .idle → s.inbox = x :: rest → step s = .next u → P rest u t →
      P (x :: rest) s t) {s : State} (h : Inv s) (hp : s.phase = .idle) :
    ∃ t, Host.Core.run Sys2Proof.core s.inbox.length s = .next t ∧ t.inbox = [] ∧ t.phase = .idle ∧ Inv t ∧
      P s.inbox s t := by
  generalize hin : s.inbox = ins
  induction ins generalizing s with
  | nil => exact ⟨s, rfl, hin, hp, h, hnil s⟩
  | cons x rest ih =>
    obtain ⟨u, hu⟩ := everyStepCompletes s h
    obtain ⟨hup, huin⟩ := step_takes_input hp hin hu
    obtain ⟨t, hrun, hend, hidle, hinv, hP⟩ := ih (everyStepKeepsInvariant s u h hu) hup huin
    exact ⟨t, (run_succ hu _).trans hrun, hend, hidle, hinv, hcons h hp hin hu hP⟩

/-! ### The voltage shadow -/

theorem shadowVoltageAfter_cons (a : Word16) (x : Input) (rest : List Input) (v : Volt12) :
    shadowVoltageAfter a (x :: rest) v = shadowVoltageAfter a rest (shadowVoltageAfter a [x] v) := by
  cases x <;> rfl

theorem shadowVoltageAfter_hrw {w : ReqWord} {b d : Word16} (hw : decodeReq w = .hrw b d) (a : Word16) (v : Volt12) :
    shadowVoltageAfter a [.request w] v = if b = a then clampVoltage d else v := by
  simp [shadowVoltageAfter, hw]

theorem shadowVoltageAfter_of_not_hrw {w : ReqWord} {a : Word16} (hw : ∀ d, decodeReq w ≠ .hrw a d) (v : Volt12) :
    shadowVoltageAfter a [.request w] v = v := by
  rw [shadowVoltageAfter, shadowVoltageAfter]
  split
  case h_1 b d hbd =>
    rw [if_neg]
    rintro rfl
    exact hw d hbd
  case h_2 => rfl

/-- After HRW in the DAC domain VCACHE holds the clamped payload at that channel, and what it held at the others. -/
theorem vcache_exec_hrw {s t : State} {b d : Word16} (hb : b.toNat < s.cfg.dacSpan) (h : exec (.hrw b d) s = .next t)
    (a : Word16) : t.vcache[a.toNat]? = s.vcache[a.toNat]?.map fun v => if b = a then clampVoltage d else v := by
  obtain ⟨u, hu, rfl⟩ := execHrw_dac_ok hb h
  obtain ⟨c, hc, hvcache⟩ := updateVoltage_vcache hu
  obtain ⟨hlt, rfl⟩ := cacheVoltage_eq_ok.1 hc
  rw [respond_vcache, hvcache]
  by_cases hba : b = a
  · subst hba
    simp [hlt]
  · have hne : b.toNat ≠ a.toNat := fun hn => hba (BitVec.eq_of_toNat_eq hn)
    simp [hba, List.getElem?_set_ne hne]

theorem step_vcache {s u : State} {x : Input} {rest : List Input} (h : Inv s) (hp : s.phase = .idle)
    (hin : s.inbox = x :: rest) (hstep : step s = .next u) {a : Word16} (ha : a.toNat < s.cfg.dacSpan) :
    u.vcache[a.toNat]? = s.vcache[a.toNat]?.map (shadowVoltageAfter a [x]) := by
  cases x with
  | rst =>
    rw [step_of_rst h.cfgValid hp hin] at hstep
    cases hstep
    rw [List.getElem?_eq_getElem (vcache_of_dac h ha)]
    exact List.getElem?_replicate_of_lt ha
  | request w =>
    rw [step_of_request h.cfgValid hp hin] at hstep
    by_cases hw : ∃ b d, decodeReq w = .hrw b d ∧ b.toNat < s.cfg.dacSpan
    · obtain ⟨b, d, hbd, hb⟩ := hw
      rw [funext (shadowVoltageAfter_hrw hbd a)]
      rw [hbd] at hstep
      exact vcache_exec_hrw (s := { s with inbox := rest, phase := .busy }) hb hstep a
    · have hsame := exec_vcache_of_not_hrw (s := { s with inbox := rest, phase := .busy })
        (fun b d hbd hb => hw ⟨b, d, hbd, hb⟩) hstep
      rw [hsame, funext (shadowVoltageAfter_of_not_hrw fun d hd => hw ⟨a, d, hd, ha⟩)]
      exact Option.map_id'.symm

/-- The voltage shadow after some inputs is what the stream alone says, channel by channel. -/
def VoltagesFollow (ins : List Input) (s t : State) : Prop :=
  ∀ a : Word16, a.toNat < s.cfg.dacSpan → t.vcache[a.toNat]? = s.vcache[a.toNat]?.map (shadowVoltageAfter a ins)

theorem VoltagesFollow.nil (s : State) : VoltagesFollow [] s s := fun _ _ => Option.map_id'.symm

theorem VoltagesFollow.cons {x : Input} {rest : List Input} {s u t : State} (h : Inv s) (hp : s.phase = .idle)
    (hin : s.inbox = x :: rest) (hstep : step s = .next u) (hrest : VoltagesFollow rest u t) :
    VoltagesFollow (x :: rest) s t := by
  intro a ha
  have hu : a.toNat < u.cfg.dacSpan := by rwa [noStepWritesConfiguration s u hstep]
  rw [hrest a hu, step_vcache h hp hin hstep ha, Option.map_map, funext (shadowVoltageAfter_cons a x rest)]
  rfl

/-- Settles O53: `run_serves` for the voltage shadow. -/
theorem runLeavesLastWrittenVoltage : Obligations.RunLeavesLastWrittenVoltage := by
  intro s h hp
  exact run_serves VoltagesFollow VoltagesFollow.nil VoltagesFollow.cons h hp

/-! ### The coils -/

theorem shadowPowerAfter_cons (a : Word16) (x : Input) (rest : List Input) (b : Bool) :
    shadowPowerAfter a (x :: rest) b = shadowPowerAfter a rest (shadowPowerAfter a [x] b) := by
  cases x <;> rfl

theorem shadowPowerAfter_cw {w : ReqWord} {e d : Word16} (hw : decodeReq w = .cw e d) (a : Word16) (b : Bool) :
    shadowPowerAfter a [.request w] b = if e = a then decide (d ≠ 0#16) else b := by
  simp [shadowPowerAfter, hw]

theorem shadowPowerAfter_of_not_cw {w : ReqWord} {a : Word16} (hw : ∀ d, decodeReq w ≠ .cw a d) (b : Bool) :
    shadowPowerAfter a [.request w] b = b := by
  rw [shadowPowerAfter, shadowPowerAfter]
  split
  case h_1 e d hed =>
    rw [if_neg]
    rintro rfl
    exact hw d hed
  case h_2 => rfl

theorem step_getPower {s u : State} {x : Input} {rest : List Input} (h : Inv s) (hp : s.phase = .idle)
    (hin : s.inbox = x :: rest) (hstep : step s = .next u) {a : Word16} (ha : a.toNat < s.cfg.dacSpan) {b : Bool}
    (hb : getPower a s = .ok b) : getPower a u = .ok (shadowPowerAfter a [x] b) := by
  cases x with
  | rst =>
    rw [step_of_rst h.cfgValid hp hin] at hstep
    cases hstep
    have hentry : (List.replicate s.cfg.numChips s.cfg.ctrlInit)[chipSelOf a]? = some s.cfg.ctrlInit :=
      List.getElem?_replicate_of_lt (chipSelOf_lt ha)
    exact getPower_of_ctrlInit (s := applyReset { s with inbox := rest }) h.cfgValid hentry
  | request w =>
    rw [step_of_request h.cfgValid hp hin] at hstep
    by_cases hw : ∃ e d, decodeReq w = .cw e d ∧ e.toNat < s.cfg.dacSpan
    · obtain ⟨e, d, hed, he⟩ := hw
      rw [hed] at hstep
      have hcoil := getPower_exec_cw (s := { s with inbox := rest, phase := .busy }) he hstep a
      rw [hcoil, shadowPowerAfter_cw hed]
      by_cases hea : e = a
      · rw [if_pos hea.symm, if_pos hea]
      · rw [if_neg (Ne.symm hea), if_neg hea]
        exact hb
    · have hsame := exec_ccache_of_not_cw (s := { s with inbox := rest, phase := .busy })
        (fun e d hed he => hw ⟨e, d, hed, he⟩) hstep
      rw [shadowPowerAfter_of_not_cw fun d hd => hw ⟨a, d, hd, ha⟩, ← hb]
      exact getPower_congr (congrArg (·[chipSelOf a]?) hsame)

/-- Each coil after some inputs is what the stream alone says. -/
def CoilsFollow (ins : List Input) (s t : State) : Prop :=
  ∀ (a : Word16) (b : Bool), a.toNat < s.cfg.dacSpan → getPower a s = .ok b →
    getPower a t = .ok (shadowPowerAfter a ins b)

theorem CoilsFollow.nil (s : State) : CoilsFollow [] s s := fun _ _ _ hb => hb

theorem CoilsFollow.cons {x : Input} {rest : List Input} {s u t : State} (h : Inv s) (hp : s.phase = .idle)
    (hin : s.inbox = x :: rest) (hstep : step s = .next u) (hrest : CoilsFollow rest u t) :
    CoilsFollow (x :: rest) s t := by
  intro a b ha hb
  have hu : a.toNat < u.cfg.dacSpan := by rwa [noStepWritesConfiguration s u hstep]
  rw [hrest a _ hu (step_getPower h hp hin hstep ha hb), ← shadowPowerAfter_cons]

/-- Settles O54: `run_serves` for the coils. -/
theorem runLeavesLastWrittenPower : Obligations.RunLeavesLastWrittenPower := by
  intro s t a b h hp ha hrun hb
  obtain ⟨t', hrun', _, _, _, hcoils⟩ := run_serves CoilsFollow CoilsFollow.nil CoilsFollow.cons h hp
  cases hrun.symm.trans hrun'
  exact hcoils a b ha hb

/-! ### The responses -/

/-- The responses added over some inputs are as many as the requests among them. -/
def ResponsesFollow (ins : List Input) (s t : State) : Prop :=
  ∃ rs, t.responses = s.responses ++ rs ∧ rs.length = requestCount ins

theorem step_responses {s u : State} {x : Input} {rest : List Input} (h : Inv s) (hp : s.phase = .idle)
    (hin : s.inbox = x :: rest) (hstep : step s = .next u) :
    ResponsesFollow [x] s u := by
  cases x with
  | rst =>
    rw [step_of_rst h.cfgValid hp hin] at hstep
    cases hstep
    exact ⟨[], (List.append_nil s.responses).symm, rfl⟩
  | request w =>
    rw [step_of_request h.cfgValid hp hin] at hstep
    obtain ⟨_, r, hr⟩ := everyRequestAnswersOnce _ u w hstep
    exact ⟨[r], hr, rfl⟩

theorem requestCount_cons (x : Input) (rest : List Input) :
    requestCount (x :: rest) = requestCount [x] + requestCount rest := by
  cases x <;> simp [requestCount, Nat.add_comm]

theorem ResponsesFollow.nil (s : State) : ResponsesFollow [] s s := ⟨[], (List.append_nil s.responses).symm, rfl⟩

theorem ResponsesFollow.cons {x : Input} {rest : List Input} {s u t : State} (h : Inv s) (hp : s.phase = .idle)
    (hin : s.inbox = x :: rest) (hstep : step s = .next u) (hrest : ResponsesFollow rest u t) :
    ResponsesFollow (x :: rest) s t := by
  obtain ⟨rs, hu, hlen⟩ := step_responses h hp hin hstep
  obtain ⟨rs', ht, hlen'⟩ := hrest
  refine ⟨rs ++ rs', ?_, ?_⟩
  · rw [ht, hu, List.append_assoc]
  · rw [List.length_append, hlen, hlen', ← requestCount_cons]

/-- Settles O55: `run_serves` for the responses. -/
theorem runAnswersEachRequestOnce : Obligations.RunAnswersEachRequestOnce := by
  intro s t h hp hrun
  obtain ⟨t', hrun', _, _, _, hrs⟩ := run_serves ResponsesFollow ResponsesFollow.nil ResponsesFollow.cons h hp
  cases hrun.symm.trans hrun'
  exact hrs

end Sys2Proof.Machine

/-! ## Requests as their bus operations (43_control_engine.md section 2, log 10)

The three requests that use the bus are one `Window` each, so one run of a window's bus operations covers them. -/

namespace Sys2Proof.Machine

/-- The bus operations of a window after its select. -/
def Window.ops (x : Window) : List SeqOp :=
  x.words.map .send ++ .deselect :: if x.strobed then [.strobe] else []

/-- The steps a window takes after its select: one for each operation, and one that ends the transaction. -/
def Window.steps (x : Window) : Nat := x.words.length + (if x.strobed then 3 else 2)

/-- The command words at the head of a transaction are transferred, one a step. -/
theorem run_sends {s : State} {j : Nat} {w : Word16} {ws : List Word16} {rest : List SeqOp} (k : Nat)
    (hv : s.cfg.valid = true) (hp : s.phase = .busy) (hsel : s.sel = some j)
    (hseq : s.seq = (w :: ws).map .send ++ rest) (hw : ∀ u ∈ w :: ws, ∃ i, decodeSpi s.cfg u = .ok i) :
    Host.Core.run Sys2Proof.core ((w :: ws).length + k) s =
      Host.Core.run Sys2Proof.core k { s with
        seq := rest
        trace := s.trace ++ transfers (w :: ws) s.draws
        sclk := sclkIdle s.cfg
        mosi := Config.mosiIdle (s.draws + (w :: ws).length)
        draws := s.draws + (w :: ws).length } := by
  induction ws generalizing s w with
  | nil =>
    obtain ⟨i, hi⟩ := hw w List.mem_cons_self
    have hstep := (step_of_send hv hp hseq hi).trans
      (congrArg outcome (xferOnly_of_selected (s := { s with seq := rest }) w hsel))
    rw [List.length_singleton, Nat.add_comm, run_succ hstep]
    rfl
  | cons w' ws ih =>
    obtain ⟨i, hi⟩ := hw w List.mem_cons_self
    have hstep := (step_of_send hv hp hseq hi).trans
      (congrArg outcome (xferOnly_of_selected (s := { s with seq := (w' :: ws).map .send ++ rest }) w hsel))
    rw [List.length_cons, Nat.add_right_comm, run_succ hstep,
      ih (s := transferred w (Config.rxDraw s.draws) { s with seq := (w' :: ws).map .send ++ rest }) hv hp hsel rfl
        fun u hu => hw u (List.mem_cons_of_mem w hu)]
    simp [transfers, Nat.add_assoc, Nat.add_comm 1]

theorem run_deselect {s : State} {j : Nat} {rest : List SeqOp} (k : Nat) (hv : s.cfg.valid = true)
    (hp : s.phase = .busy) (hsel : s.sel = some j) (hseq : s.seq = .deselect :: rest) :
    Host.Core.run Sys2Proof.core (k + 1) s = Host.Core.run Sys2Proof.core k (closeWindow j { s with seq := rest }) :=
  run_succ ((step_of_deselect hv hp hseq).trans
    (congrArg outcome (deselect_of_selected (s := { s with seq := rest }) hsel))) k

theorem run_strobe {s : State} {rest : List SeqOp} (k : Nat) (hv : s.cfg.valid = true) (hp : s.phase = .busy)
    (hsel : s.sel = none) (hseq : s.seq = .strobe :: rest) :
    Host.Core.run Sys2Proof.core (k + 1) s =
      Host.Core.run Sys2Proof.core k (emitAll strobeEvents { s with seq := rest }) :=
  run_succ ((step_of_strobe hv hp hseq).trans
    (congrArg outcome (strobe_of_idle (s := { s with seq := rest }) hsel))) k

theorem run_finish {s : State} (hv : s.cfg.valid = true) (hp : s.phase = .busy) (hseq : s.seq = []) :
    Host.Core.run Sys2Proof.core 1 s = .next { s with phase := .idle } :=
  run_succ (step_of_finish hv hp hseq) 0

/-- After its select a window's bus operations, one a step, do what the window does at once between requests. -/
theorem run_window {s : State} {x : Window} (hv : s.cfg.valid = true) (hp : s.phase = .idle) (hsel : s.sel = none)
    (hseq : s.seq = []) (hne : x.words ≠ []) (hw : ∀ u ∈ x.words, ∃ i, decodeSpi s.cfg u = .ok i) :
    Host.Core.run Sys2Proof.core x.steps { openWindow x.chip s with phase := .busy, seq := x.ops } =
      .next (x.after s) := by
  obtain ⟨w, ws, hws⟩ := List.exists_cons_of_ne_nil hne
  have hsteps : x.steps = (w :: ws).length + if x.strobed then 3 else 2 := by rw [Window.steps, hws]
  have hops : x.ops = (w :: ws).map .send ++ .deselect :: if x.strobed then [.strobe] else [] := by
    rw [Window.ops, hws]
  rw [hws] at hw
  rw [hsteps]
  refine (run_sends (s := { openWindow x.chip s with phase := .busy, seq := x.ops }) _ hv rfl rfl hops hw).trans ?_
  cases hs : x.strobed with
  | true =>
    refine Eq.trans (run_deselect (j := x.chip) 2 hv rfl rfl rfl) ?_
    refine Eq.trans (run_strobe 1 hv rfl rfl rfl) ?_
    refine Eq.trans (run_finish hv rfl rfl) ?_
    simp [Window.after, Window.events, hws, hs, hp, hsel, hseq, driveAll_transfers]
  | false =>
    refine Eq.trans (run_deselect (j := x.chip) 1 hv rfl rfl rfl) ?_
    refine Eq.trans (run_finish hv rfl rfl) ?_
    simp [Window.after, Window.events, hws, hs, hp, hsel, hseq, driveAll_transfers]

/-- Settles O57: HRW is the update's window, and so are its bus operations. -/
theorem atomicUpdateIsItsBusOperations : Obligations.AtomicUpdateIsItsBusOperations := by
  intro s a d h hp ha
  obtain ⟨hsel, hseq⟩ := h.idleNothingPending hp
  exact ⟨_, run_window (s := { s with vcache := s.vcache.set a.toNat (clampVoltage d) }) (x := updateWindow a d)
    h.cfgValid hp hsel hseq nofun (decodeSpi_updateWindow s.cfg a d), exec_hrw_of_inv d h hsel ha⟩

theorem words_powerWindow_ne_nil (c : Config) (a w : Word16) : (powerWindow c a w).words ≠ [] := by
  cases hn : c.nullWordAfterCtrl <;> simp [powerWindow, hn]

theorem steps_powerWindow (c : Config) (a w : Word16) :
    (powerWindow c a w).steps = if c.nullWordAfterCtrl then 4 else 3 := by
  cases hn : c.nullWordAfterCtrl <;> simp [Window.steps, powerWindow, hn]

theorem ops_powerWindow (c : Config) (a w : Word16) :
    (powerWindow c a w).ops =
      (if c.nullWordAfterCtrl then [.send w, .send 0x0000#16] else [.send w]) ++ [.deselect] := by
  cases hn : c.nullWordAfterCtrl <;> simp [Window.ops, powerWindow, nullWord, hn]

/-- Settles O58: CW is the power set's window, with one word or two. -/
theorem atomicPowerSetIsItsBusOperations : Obligations.AtomicPowerSetIsItsBusOperations := by
  intro s a d w h hp ha hw
  obtain ⟨hsel, hseq⟩ := h.idleNothingPending hp
  have hexec := exec_cw_of_unselected d hsel ha hw
  have hnew := fixedBits_coilWrite h.ccacheFixed hw (subOf_lt a) (decide (d ≠ 0#16))
  generalize withPower w (subOf a) (decide (d ≠ 0#16)) = new at hexec hnew ⊢
  rw [← steps_powerWindow s.cfg a new, ← ops_powerWindow s.cfg a new]
  exact ⟨_, run_window (s := { s with ccache := s.ccache.set (chipSelOf a) new }) (x := powerWindow s.cfg a new)
    h.cfgValid hp hsel hseq (words_powerWindow_ne_nil s.cfg a new) (decodeSpi_powerWindow hnew), hexec⟩

/-- Settles O59: IRR is the readback's window, whose one transfer is in the trace. -/
theorem atomicReadbackIsItsBusOperations : Obligations.AtomicReadbackIsItsBusOperations := by
  intro s a d h hp ha
  obtain ⟨hsel, hseq⟩ := h.idleNothingPending hp
  refine ⟨_, run_window (x := readWindow a) h.cfgValid hp hsel hseq nofun (decodeSpi_readWindow s.cfg a),
    ?transfer, exec_irr_of_unselected d hsel ha⟩
  case transfer => simp [Window.after, Window.events, readWindow, transfers]

end Sys2Proof.Machine
